-- ==== Sys2Proof/Word.lean ====
section
/-! DEFINITION. The value types of the codec: bytes, header dimensions, 64-bit counters and the Pixel. -/

namespace Sys2Proof

/-- A byte of the compressed format (R10). -/
abbrev Byte := BitVec 8

/-- A 32-bit header dimension (R28, R34). -/
abbrev Dim := BitVec 32

/-- A 64-bit pixel counter (R6, decision D5). -/
abbrev Count := BitVec 64

/-- A Pixel: three unsigned 8-bit channels and nothing else (R20); its equality is component-wise (R21). -/
structure Pixel where
  r : Byte
  g : Byte
  b : Byte
deriving DecidableEq, Repr

/-- `(0,0,0)`, the value of every cache slot and of `prev` at the start of an invocation (R47). -/
def Pixel.black : Pixel := ⟨0#8, 0#8, 0#8⟩

end Sys2Proof
end

