-- ==== Sys2Proof/Config.lean ====
section
/-! DEFINITION. The constants of the hardware (R5). The spec has no open value (93_implementation_defined: "nothing draws
a value"), so no constant here is opaque. -/

namespace Sys2Proof.Config

/-- `MAGIC`, the first four bytes of a header record (R5, R71). -/
def magic : BitVec 32 := 0x716f6966#32

/-- `HDR_CHANNELS`, the byte ENC writes at offset 12 (R5, R101). -/
def hdrChannels : Byte := 3#8

/-- `HDR_COLORSPACE`, the byte ENC writes at offset 13 (R5, R101). -/
def hdrColorspace : Byte := 1#8

/-- `HEADER_BYTES` (R5). -/
def headerBytes : Nat := 14

/-- `RUN_MAX`, the largest run one RUN opcode carries (R5). -/
def runMax : Nat := 62

/-- Bytes of the longest opcode, RGB (R72). -/
def maxOpcodeBytes : Nat := 4

end Sys2Proof.Config
end

