-- ==== Sys2Proof/Syntax.lean ====
section
/-! DEFINITION. The instruction set: one constructor per row of spec/opcode_table.json, and the textual forms of R88. -/

namespace Sys2Proof

/-- The opcodes of the compressed format and its header record. Operands are the fields of the encoding, still biased
(R84); the signed deltas are computed in Machine/Operands.lean. -/
inductive Instr where
  /-- RGB, a literal pixel (R77, R152). -/
  | rgb (r g b : Byte)
  /-- RGBA, the reserved byte `0xff` (R78, R153). -/
  | rgba
  /-- INDEX, a cache reference (R73, R155). -/
  | index (key : BitVec 6)
  /-- DIFF, three 2-bit deltas plus 2 (R74, R156). -/
  | diff (fr fg fb : BitVec 2)
  /-- LUMA, the green delta plus 32 and the red-green and blue-green deltas plus 8 (R75, R157). -/
  | luma (fdg : BitVec 6) (frg fbg : BitVec 4)
  /-- RUN, the run length minus 1 (R76, R154). -/
  | run (len1 : BitVec 6)
  /-- HEADER, the 14-byte record at stream offset 0 (R71, R100, R103). -/
  | header (width height : Dim) (channels colorspace : Byte)
deriving DecidableEq, Repr

/-- The textual forms of R88, with the operands as a writer gives them: signed deltas, a run length, plain numbers. -/
inductive Asm where
  /-- `HEADER w, h`: channels 3 and colorspace 1. -/
  | header (w h : Nat)
  /-- `HEADER w, h, ch, cs`. -/
  | headerWith (w h ch cs : Nat)
  /-- `INDEX k`. -/
  | index (k : Nat)
  /-- `DIFF dr, dg, db`. -/
  | diff (dr dg db : Int)
  /-- `LUMA dg, drg, dbg`. -/
  | luma (dg drg dbg : Int)
  /-- `RUN n`. -/
  | run (n : Nat)
  /-- `RGB r, g, b`. -/
  | rgb (r g b : Nat)
  /-- `RGBA`. -/
  | rgba
  /-- `.byte v`, a raw byte. -/
  | byte (v : Nat)
deriving DecidableEq, Repr

end Sys2Proof
end

