-- ==== Sys2Proof/WellFormed.lean ====
section
/-! DEFINITION. Which terms of Instr stand for an encoding: every one, but a RUN whose field would collide with the
exact bytes `0xfe` and `0xff`. -/

namespace Sys2Proof

/-- `len1` of RUN is restricted to 0..61 (R76): 62 and 63 are the bytes of RGB and RGBA. Every other field takes every
value of its width (R73, R74, R75, R77, R71). -/
def Instr.wellFormed : Instr → Bool
  | .rgb _ _ _ => true
  | .rgba => true
  | .index _ => true
  | .diff _ _ _ => true
  | .luma _ _ _ => true
  | .run len1 => decide (len1.toNat < Config.runMax)
  | .header _ _ _ _ => true

/-- An opcode of the opcode stream, as against the header record, which is not one (R89). -/
def Instr.isOpcode : Instr → Bool
  | .rgb _ _ _ => true
  | .rgba => true
  | .index _ => true
  | .diff _ _ _ => true
  | .luma _ _ _ => true
  | .run _ => true
  | .header _ _ _ _ => false

end Sys2Proof
end

