-- ==== Sys2Proof/Decode.lean ====
section
/-! DEFINITION. Bytes to instructions and back. Decoding is total: it answers an instruction with the bytes that follow
it, or rejects by name. The encoder is written from the same tables (R71 to R78), and `assemble` from R88. -/

namespace Sys2Proof

/-- Why bytes are no instruction. -/
inductive DecodeError where
  /-- The bytes end before the unit does (R55): the decoder raises `UnexpectedEndOfStream`. -/
  | endOfStream
  /-- Four bytes are present and are not the magic (R102): the decoder raises `FormatError`. -/
  | badMagic
deriving DecidableEq, Repr

/-- The next 32-bit big-endian field (R56): the byte at the lowest offset is the most significant. -/
def take32 : List Byte → Except DecodeError (BitVec 32 × List Byte)
  | b0 :: b1 :: b2 :: b3 :: rest => .ok (b0 ++ b1 ++ b2 ++ b3, rest)
  | _ => .error .endOfStream

/-- The next byte. -/
def take8 : List Byte → Except DecodeError (Byte × List Byte)
  | b :: rest => .ok (b, rest)
  | [] => .error .endOfStream

/-- The opcode whose first byte is `b` (R80): the exact codes are tested before the top two bits. `rest` holds the bytes
after `b`; payload bytes are data (R81). -/
def decodeFrom (b : Byte) (rest : List Byte) : Except DecodeError (Instr × List Byte) :=
  if b = 0xfe#8 then
    match rest with
    | r :: g :: bl :: rest' => .ok (.rgb r g bl, rest')
    | _ => .error .endOfStream
  else if b = 0xff#8 then .ok (.rgba, rest)
  else if b &&& 0xc0#8 = 0xc0#8 then .ok (.run (b.extractLsb' 0 6), rest)
  else if b &&& 0xc0#8 = 0x00#8 then .ok (.index (b.extractLsb' 0 6), rest)
  else if b &&& 0xc0#8 = 0x40#8 then
    .ok (.diff (b.extractLsb' 4 2) (b.extractLsb' 2 2) (b.extractLsb' 0 2), rest)
  else
    match rest with
    | b2 :: rest' => .ok (.luma (b.extractLsb' 0 6) (b2.extractLsb' 4 4) (b2.extractLsb' 0 4), rest')
    | [] => .error .endOfStream

/-- One opcode of the opcode stream, with the bytes that follow it (R80). -/
def decodeOpcode : List Byte → Except DecodeError (Instr × List Byte)
  | [] => .error .endOfStream
  | b :: rest => decodeFrom b rest

/-- The magic (R102): fewer than four bytes is the end of the stream, four other bytes are a bad magic (R188). -/
def decodeMagic (bs : List Byte) : Except DecodeError (List Byte) :=
  match take32 bs with
  | .error e => .error e
  | .ok (m, rest) => if m = Config.magic then .ok rest else .error .badMagic

/-- The ten bytes after the magic (R71, R103): width, height, channels, colorspace, none of them checked (R104, R105). -/
def decodeDims (bs : List Byte) : Except DecodeError (Instr × List Byte) :=
  match take32 bs with
  | .error e => .error e
  | .ok (w, bs1) =>
    match take32 bs1 with
    | .error e => .error e
    | .ok (h, bs2) =>
      match take8 bs2 with
      | .error e => .error e
      | .ok (ch, bs3) =>
        match take8 bs3 with
        | .error e => .error e
        | .ok (cs, rest) => .ok (.header w h ch cs, rest)

/-- The whole 14-byte header record (R71). -/
def decodeHeader (bs : List Byte) : Except DecodeError (Instr × List Byte) :=
  match decodeMagic bs with
  | .error e => .error e
  | .ok rest => decodeDims rest

/-- The four bytes of a 32-bit field, most significant first (R56). -/
def bytes32 (v : BitVec 32) : List Byte :=
  [v.extractLsb' 24 8, v.extractLsb' 16 8, v.extractLsb' 8 8, v.extractLsb' 0 8]

/-- The bytes of an instruction, from the format tables: RGB R77, RGBA R78, INDEX R73, DIFF R74, LUMA R75, RUN R76,
HEADER R71. -/
def encode : Instr → List Byte
  | .rgb r g b => [0xfe#8, r, g, b]
  | .rgba => [0xff#8]
  | .index key => [0b00#2 ++ key]
  | .diff fr fg fb => [0b01#2 ++ fr ++ fg ++ fb]
  | .luma fdg frg fbg => [0b10#2 ++ fdg, frg ++ fbg]
  | .run len1 => [0b11#2 ++ len1]
  | .header w h ch cs => bytes32 Config.magic ++ bytes32 w ++ bytes32 h ++ [ch, cs]

/-- The number of bytes of an instruction, from the table's `length_bytes` (R72, R71). -/
def Instr.lengthBytes : Instr → Nat
  | .rgb _ _ _ => 4
  | .rgba => 1
  | .index _ => 1
  | .diff _ _ _ => 1
  | .luma _ _ _ => 2
  | .run _ => 1
  | .header _ _ _ _ => Config.headerBytes

/-- A signed delta as the biased field that holds it (R84): `d + B` in `n` bits. -/
def biased (n : Nat) (bias d : Int) : BitVec n := BitVec.ofInt n (d + bias)

/-- The instruction a textual form of R88 stands for; `none` where an operand is outside its stated range (R89 for RUN)
and for the raw byte, which is no instruction. -/
def Asm.instr? : Asm → Option Instr
  | .header w h =>
    if w < 2 ^ 32 ∧ h < 2 ^ 32 then
      some (.header (BitVec.ofNat 32 w) (BitVec.ofNat 32 h) Config.hdrChannels Config.hdrColorspace)
    else none
  | .headerWith w h ch cs =>
    if w < 2 ^ 32 ∧ h < 2 ^ 32 ∧ ch ≤ 255 ∧ cs ≤ 255 then
      some (.header (BitVec.ofNat 32 w) (BitVec.ofNat 32 h) (BitVec.ofNat 8 ch) (BitVec.ofNat 8 cs))
    else none
  | .index k => if k ≤ 63 then some (.index (BitVec.ofNat 6 k)) else none
  | .diff dr dg db =>
    if (-2 ≤ dr ∧ dr ≤ 1) ∧ (-2 ≤ dg ∧ dg ≤ 1) ∧ (-2 ≤ db ∧ db ≤ 1) then
      some (.diff (biased 2 2 dr) (biased 2 2 dg) (biased 2 2 db))
    else none
  | .luma dg drg dbg =>
    if (-32 ≤ dg ∧ dg ≤ 31) ∧ (-8 ≤ drg ∧ drg ≤ 7) ∧ (-8 ≤ dbg ∧ dbg ≤ 7) then
      some (.luma (biased 6 32 dg) (biased 4 8 drg) (biased 4 8 dbg))
    else none
  | .run n => if 1 ≤ n ∧ n ≤ Config.runMax then some (.run (BitVec.ofNat 6 (n - 1))) else none
  | .rgb r g b =>
    if r ≤ 255 ∧ g ≤ 255 ∧ b ≤ 255 then
      some (.rgb (BitVec.ofNat 8 r) (BitVec.ofNat 8 g) (BitVec.ofNat 8 b))
    else none
  | .rgba => some .rgba
  | .byte _ => none

/-- The bytes of a textual form of R88; `none` where an operand is out of range. -/
def Asm.assemble : Asm → Option (List Byte)
  | .byte v => if v ≤ 255 then some [BitVec.ofNat 8 v] else none
  | a => a.instr?.map encode

/-- The lower 8 bits of `w` after dropping `8 * k`: byte `k` of a number whose first byte is its least significant. -/
def byteOf (w k : Nat) : Byte := BitVec.ofNat 8 (w / 2 ^ (8 * k))

/-- Whether the table's number stands for the header record (log 10): more bits than any opcode has, or 32 bits that are
the magic as the table writes it. -/
def isRecordWord (nbits w : Nat) : Bool :=
  decide (32 < nbits) || (decide (nbits = 32) && decide (w % 2 ^ 32 = Config.magic.toNat))

/-- The bytes a number of spec/opcode_table.json stands for, in stream order. An opcode's words are its bytes, the first
in bits 7..0. HEADER's words are its fields (log 10): magic in bits 31..0, width in 63..32, height in 95..64, each stored
big-endian (R56), then channels in 103..96 and colorspace in 111..104. Bits at and above `nbits` are 0. -/
def tableBytes (nbits w : Nat) : List Byte :=
  let v := w % 2 ^ nbits
  if isRecordWord nbits w then
    bytes32 (BitVec.ofNat 32 v) ++ bytes32 (BitVec.ofNat 32 (v / 2 ^ 32)) ++
      bytes32 (BitVec.ofNat 32 (v / 2 ^ 64)) ++ [byteOf v 12, byteOf v 13]
  else [byteOf v 0, byteOf v 1, byteOf v 2, byteOf v 3]

/-- What the decoder reads from the bytes of a table number. -/
def decodeTableBytes (nbits w : Nat) : Except DecodeError (Instr × List Byte) :=
  if isRecordWord nbits w then decodeHeader (tableBytes nbits w) else decodeOpcode (tableBytes nbits w)

/-- The instruction the decoder reads from a number of spec/opcode_table.json; `none` where it rejects. -/
def decodeTableWord (nbits w : Nat) : Option Instr :=
  match decodeTableBytes nbits w with
  | .ok (i, _) => some i
  | .error _ => none

end Sys2Proof
end

