-- ==== Sys2Proof/Machine/Memory.lean ====
section
/-! DEFINITION. The four sequences of the hardware (R50 to R53) as lists of (position, element) pairs in one canonical
form, and the operations over them. A position is a natural number (R6): it cannot wrap. -/

namespace Sys2Proof.Machine

/-- A sequence: its elements with their positions. `Memory Byte` is a list of `Host.Cell` (IN, OUT); `Memory Pixel` holds
PIX_IN and PIX_OUT. -/
abbrev Memory (α : Type) := List (Nat × α)

/-- What a position that is not listed reads as: no element. For IN this is the end of the stream (R55), for PIX_IN a
pixel the host did not supply (R51). -/
def Memory.unlisted {α : Type} : Option α := none

/-- The element at position `a`. -/
def Memory.read {α : Type} (m : Memory α) (a : Nat) : Option α :=
  match m with
  | [] => Memory.unlisted
  | (k, v) :: rest => if k = a then some v else Memory.read rest a

/-- `MemWrite` of one element (R12): position `a` holds `v`, every other position keeps what it holds. -/
def Memory.write {α : Type} (m : Memory α) (a : Nat) (v : α) : Memory α :=
  match m with
  | [] => [(a, v)]
  | (k, u) :: rest =>
    if a < k then (a, v) :: (k, u) :: rest
    else if a = k then (a, v) :: rest
    else (k, u) :: Memory.write rest a v

/-- `MemWrite` of several elements at `a`, `a+1`, ... in order (R12, R56). -/
def Memory.writeList {α : Type} (m : Memory α) (a : Nat) (vs : List α) : Memory α :=
  match vs with
  | [] => m
  | v :: rest => Memory.writeList (Memory.write m a v) (a + 1) rest

/-- The canonical form: positions strictly rising. (No entry can equal what an unlisted position reads as.) -/
abbrev Memory.wf {α : Type} (m : Memory α) : Prop := (m.map Prod.fst).Pairwise (· < ·)

/-- A sequence without holes: its positions are 0, 1, ..., up to its length (R50, R52). -/
abbrev Memory.dense {α : Type} (m : Memory α) : Prop := m.map Prod.fst = List.range m.length

/-- The elements of a list at positions `a`, `a+1`, ... -/
def Memory.ofListFrom {α : Type} (a : Nat) (vs : List α) : Memory α :=
  match vs with
  | [] => []
  | v :: rest => (a, v) :: Memory.ofListFrom (a + 1) rest

/-- The sequence a host presents: element `i` of the list at position `i` (R50, R52). -/
def Memory.ofList {α : Type} (vs : List α) : Memory α := Memory.ofListFrom 0 vs

/-- The elements in order of position. -/
def Memory.elements {α : Type} (m : Memory α) : List α := m.map Prod.snd

/-- The elements at `a`, `a+1`, ..., at most `n` of them, up to the first that does not exist: what `MemRead` at `a` can
see (R55). -/
def Memory.window {α : Type} (m : Memory α) (a n : Nat) : List α :=
  match n with
  | 0 => []
  | n + 1 =>
    match m.read a with
    | none => []
    | some v => v :: Memory.window m (a + 1) n

end Sys2Proof.Machine
end

