-- ==== Sys2Proof/Machine/State.lean ====
section
/-! DEFINITION. The state of the hardware: every register of R47's table, the four sequences, and the agenda; the reasons
a step can stop; the state after power-on. -/

namespace Sys2Proof.Machine

/-- The index cache: 64 slots of one Pixel, with no valid bit and no tag (R26). -/
abbrev Cache := Vector Pixel 64

/-- `enc.phase` (R30). ENC has no FAULT phase (R184, decision D31). -/
inductive EncPhase where
  | idle | header | pixels | done
deriving DecidableEq, Repr

/-- `dec.phase` (R41). -/
inductive DecPhase where
  | idle | header | opcodes | done | fault
deriving DecidableEq, Repr

/-- `dec.cause` (R42). The numeric codes are `Cause.code` (R185). -/
inductive Cause where
  | none | formatError | unexpectedEndOfStream | unsupportedOpcode
deriving DecidableEq, Repr

/-- The registers of the encoder. -/
structure Enc where
  /-- `enc.cache` (R26). -/
  cache : Cache
  /-- `enc.prev` (R24). -/
  prev : Pixel
  /-- `enc.run` (R25), 6 bits. -/
  run : BitVec 6
  /-- `enc.width` (R28). -/
  width : Dim
  /-- `enc.height` (R28). -/
  height : Dim
  /-- `enc.n_total` (R28). -/
  nTotal : Count
  /-- `enc.in_count` (R29). -/
  inCount : Count
  /-- `enc.out_len` (R29), a natural number. -/
  outLen : Nat
  /-- `enc.phase` (R30). -/
  phase : EncPhase
deriving DecidableEq, Repr

/-- The registers of the decoder. -/
structure Dec where
  /-- `dec.cache` (R32). -/
  cache : Cache
  /-- `dec.prev` (R31). -/
  prev : Pixel
  /-- `dec.run` (R33), 6 bits: 0 at every step boundary, read by no rule (decision D26). -/
  run : BitVec 6
  /-- `dec.width` (R34). -/
  width : Dim
  /-- `dec.height` (R34). -/
  height : Dim
  /-- `dec.n_total` (R34). -/
  nTotal : Count
  /-- `dec.channels` (R35). -/
  channels : Byte
  /-- `dec.colorspace` (R35). -/
  colorspace : Byte
  /-- `dec.pc` (R36), a natural number. -/
  pc : Nat
  /-- `dec.out_count` (R37). -/
  outCount : Count
  /-- `dec.phase` (R41). -/
  phase : DecPhase
  /-- `dec.cause` (R42). -/
  cause : Cause
  /-- `dec.fault_pc` (R42), a natural number. -/
  faultPc : Nat
  /-- `dec.fault_byte` (R42). -/
  faultByte : Byte
deriving DecidableEq, Repr

/-- What happens next: a host command with the input it brings, or the turn of one of the two blocks (log 2). -/
inductive Event where
  /-- `enc_start(w, h)` with `PIX_IN` holding the pixels (R120). -/
  | encStart (w h : Dim) (pixels : List Pixel)
  /-- `dec_start` with `IN` holding the bytes (R150). -/
  | decStart (bytes : List Byte)
  /-- ENC takes its next step, if it has one. -/
  | encTurn
  /-- DEC takes its next step, if it has one. -/
  | decTurn
deriving DecidableEq, Repr

/-- The whole machine: one encoder, one decoder (log 1), their sequences, and the agenda. -/
structure State where
  enc : Enc
  /-- `PIX_IN` (R50). -/
  pixIn : Memory Pixel
  /-- `OUT` (R53). -/
  out : Memory Byte
  dec : Dec
  /-- `IN` (R52). -/
  inp : Memory Byte
  /-- `PIX_OUT` (R53). -/
  pixOut : Memory Pixel
  /-- The model's own field: host commands and turns still to come, the next one first (log 2). -/
  agenda : List Event
deriving DecidableEq, Repr

/-- Why the machine has no next state. The three faults of the hardware (R180) are not here: DEC takes them, as a next
state in phase FAULT (log 8). -/
inductive Fault where
  /-- No block has a step and none is waiting: each is IDLE, DONE or FAULT (R195, R215), and no host command is pending.
  Raised by `restStep`. Safe: the spec gives no step either. -/
  | atRest
  /-- ENC is in PIXELS and the host did not supply pixel `enc.in_count` (R51, R197a), and DEC has no step.
  Raised by `restStep` and `encStep`. Safe: a stuck state. -/
  | encoderStuck
  /-- DEC is in HEADER at a position other than 0 and 4, where no rule is enabled (R102, R103); no run reaches it.
  Raised by `restStep` and `decStep`. Safe. -/
  | decoderStuck
  /-- `exec` was asked for an instruction in a phase that does not enable it (R150, R103). `step` never asks.
  Raised by `opcodeStep` and `execHeader`. Safe. -/
  | notEnabled
deriving DecidableEq, Repr

/-- What the model declines. -/
inductive Refusal where
  /-- No meaning yet for the instruction with this mnemonic. Raised by arms of `exec` only. Safe. -/
  | notModelled (mnemonic : String)
  /-- A start command to a block that is in the middle of an invocation (R206, R197b, decision D29).
  Raised by `encStart` and `decStart`. Safe: the spec gives it no meaning. -/
  | startWhileBusy
deriving DecidableEq, Repr

/-- The three outcomes, at this machine's types. -/
abbrev Result := Host.Outcome State Fault Refusal

/-- Every slot `(0,0,0)` (R47). -/
def Cache.zero : Cache := Vector.replicate 64 Pixel.black

/-- ENC after power-on (R47 column 3, R201). -/
def Enc.powerOn : Enc where
  cache := Cache.zero
  prev := Pixel.black
  run := 0#6
  width := 0#32
  height := 0#32
  nTotal := 0#64
  inCount := 0#64
  outLen := 0
  phase := .idle

/-- DEC after power-on (R47 column 3, R201). -/
def Dec.powerOn : Dec where
  cache := Cache.zero
  prev := Pixel.black
  run := 0#6
  width := 0#32
  height := 0#32
  nTotal := 0#64
  channels := 0#8
  colorspace := 0#8
  pc := 0
  outCount := 0#64
  phase := .idle
  cause := .none
  faultPc := 0
  faultByte := 0#8

/-- Power-on (R201): every register 0, both phases IDLE; the sequences empty and nothing on the agenda (log 15). -/
def State.reset : State where
  enc := Enc.powerOn
  pixIn := []
  out := []
  dec := Dec.powerOn
  inp := []
  pixOut := []
  agenda := []

end Sys2Proof.Machine
end

