-- ==== Sys2Proof/Machine/Operands.lean ====
section
/-! DEFINITION. The operand forms and the arithmetic of both blocks: the hash, pixel subtraction, the biased deltas,
reconstruction, the classifier. All of it is over the integers, with the narrowing written out (R11). -/

namespace Sys2Proof.Machine

/-- A signed difference of two pixels, channel by channel (R22). -/
structure Delta where
  r : Int
  g : Int
  b : Int
deriving DecidableEq, Repr

/-- The 24-bit register form of a Pixel: `r` in 23:16, `g` in 15:8, `b` in 7:0 (R20). -/
def packPixel (p : Pixel) : BitVec 24 := p.r ++ p.g ++ p.b

/-- The Pixel a 24-bit register holds (R20). -/
def unpackPixel (v : BitVec 24) : Pixel := ⟨v.extractLsb' 16 8, v.extractLsb' 8 8, v.extractLsb' 0 8⟩

/-- `hash(p) = (3*p.r + 5*p.g + 7*p.b) mod 64` (R27). -/
def hash (p : Pixel) : BitVec 6 := BitVec.ofNat 6 (3 * p.r.toNat + 5 * p.g.toNat + 7 * p.b.toNat)

/-- Pixel subtraction (R22): over the integers, not wrapped. -/
def pixelSub (p q : Pixel) : Delta :=
  ⟨(p.r.toNat : Int) - q.r.toNat, (p.g.toNat : Int) - q.g.toNat, (p.b.toNat : Int) - q.b.toNat⟩

/-- The signed delta a biased field holds: `d = f - B` (R84). -/
def unbias {n : Nat} (bias : Int) (f : BitVec n) : Int := (f.toNat : Int) - bias

/-- The deltas of DIFF, bias 2 (R84, R156). -/
def diffDelta (fr fg fb : BitVec 2) : Delta := ⟨unbias 2 fr, unbias 2 fg, unbias 2 fb⟩

/-- The deltas of LUMA (R84, R157): green bias 32; red and blue are differences from green, bias 8, added over the
integers. -/
def lumaDelta (fdg : BitVec 6) (frg fbg : BitVec 4) : Delta :=
  ⟨unbias 8 frg + unbias 32 fdg, unbias 32 fdg, unbias 8 fbg + unbias 32 fdg⟩

/-- The run length of RUN, `len1 + 1` (R85, R154). -/
def runLength (len1 : BitVec 6) : Nat := len1.toNat + 1

/-- One channel plus a delta, modulo 256 (R158). -/
def addChannel (c : Byte) (d : Int) : Byte := BitVec.ofInt 8 ((c.toNat : Int) + d)

/-- `Reconstruct` (R158): each channel wraps on its own; no carry, no clamp. -/
def reconstruct (q : Pixel) (d : Delta) : Pixel := ⟨addChannel q.r d.r, addChannel q.g d.g, addChannel q.b d.b⟩

/-- `width * height` in 64 bits, which holds every product of two 32-bit values (R28, R34, R6). -/
def pixelTotal (w h : Dim) : Count := w.setWidth 64 * h.setWidth 64

/-- Both bounds inclusive (R129). -/
def within (lo hi x : Int) : Bool := decide (lo ≤ x) && decide (x ≤ hi)

/-- What the classifier answers (R129). -/
inductive OpClass where
  | diff | luma | rgb
deriving DecidableEq, Repr

/-- `Classify` (R129): DIFF is tested before LUMA. -/
def classify (d : Delta) : OpClass :=
  if within (-2) 1 d.r && within (-2) 1 d.g && within (-2) 1 d.b then .diff
  else if within (-32) 31 d.g && within (-8) 7 (d.r - d.g) && within (-8) 7 (d.b - d.g) then .luma
  else .rgb

/-- The opcode ENC emits on a cache miss for the pixel `cur` after `prev`: DIFF R130, LUMA R131, RGB R132. -/
def missOpcode (prev cur : Pixel) : Instr :=
  let d := pixelSub cur prev
  match classify d with
  | .diff => .diff (biased 2 2 d.r) (biased 2 2 d.g) (biased 2 2 d.b)
  | .luma => .luma (biased 6 32 d.g) (biased 4 8 (d.r - d.g)) (biased 4 8 (d.b - d.g))
  | .rgb => .rgb cur.r cur.g cur.b

/-- The numeric code of a cause (R185). -/
def Cause.code : Cause → Nat
  | .none => 0
  | .formatError => 1
  | .unexpectedEndOfStream => 2
  | .unsupportedOpcode => 3

end Sys2Proof.Machine
end

