-- ==== Sys2Proof/Machine/Flags.lean ====
section
/-! DEFINITION. The hardware has no condition codes (R43). Its status is the two phases and a pending run: here is every
test of status that a rule makes. -/

namespace Sys2Proof.Machine

/-- A run is pending: `enc.run > 0` (R25, R124). -/
def Enc.runPending (e : Enc) : Bool := decide (0 < e.run.toNat)

/-- The current input pixel is the last: `in_count + 1 = n_total` (R121, R123). -/
def Enc.atLast (e : Enc) : Bool := decide (e.inCount.toNat + 1 = e.nTotal.toNat)

/-- A start command is accepted by ENC: IDLE or DONE (R204, decision D29). -/
def Enc.acceptsStart (e : Enc) : Bool :=
  match e.phase with
  | .idle => true
  | .header => false
  | .pixels => false
  | .done => true

/-- The phase after ENC's header step (R100). -/
def Enc.phaseAfterHeader (e : Enc) : EncPhase := if e.nTotal = 0#64 then .done else .pixels

/-- The phase after a pixel step, from the registers the step leaves (R134). -/
def Enc.phaseAfterPixel (e : Enc) : EncPhase := if e.inCount = e.nTotal then .done else e.phase

/-- Pixels DEC still owes: `n_total - out_count` (R154). -/
def Dec.owed (d : Dec) : Nat := d.nTotal.toNat - d.outCount.toNat

/-- A start command is accepted by DEC: IDLE, DONE or FAULT (R205, decision D29). -/
def Dec.acceptsStart (d : Dec) : Bool :=
  match d.phase with
  | .idle => true
  | .header => false
  | .opcodes => false
  | .done => true
  | .fault => true

/-- The phase after the dimensions step (R103). -/
def Dec.phaseAfterHeader (d : Dec) : DecPhase := if d.nTotal = 0#64 then .done else .opcodes

/-- The phase after an opcode step, from the registers the step leaves (R150, R151). -/
def Dec.phaseAfterOpcode (d : Dec) : DecPhase := if d.outCount = d.nTotal then .done else d.phase

/-- DEC has a step: in HEADER at one of its two positions, or in OPCODES (R102, R103, R150). -/
def Dec.ready (d : Dec) : Bool :=
  match d.phase with
  | .idle => false
  | .header => decide (d.pc = 0) || decide (d.pc = 4)
  | .opcodes => true
  | .done => false
  | .fault => false

/-- ENC has a step: in HEADER, or in PIXELS with its next pixel supplied (R100, R121, R197a). -/
def State.encReady (s : State) : Bool :=
  match s.enc.phase with
  | .idle => false
  | .header => true
  | .pixels => (s.pixIn.read s.enc.inCount.toNat).isSome
  | .done => false

end Sys2Proof.Machine
end

