-- ==== Sys2Proof/Machine/Ops.lean ====
section
/-! DEFINITION. The named operations over registers and sequences: cache access, emission of bytes and pixels, the
shared frame of an opcode step, fault entry. There is no return from a fault (R192). -/

namespace Sys2Proof.Machine

/-- Read cache slot `k` (R54). -/
def Cache.read (c : Cache) (k : BitVec 6) : Pixel := c.get k.toFin

/-- Write cache slot `k`; a slot is never partly written (R54). -/
def Cache.write (c : Cache) (k : BitVec 6) (p : Pixel) : Cache := c.set k.toNat p k.isLt

/-! ENC -/

/-- `EmitByte(b)` (R12): `OUT[out_len] <- b; out_len <- out_len + 1`. -/
def emitByte (b : Byte) (s : State) : State :=
  { s with
    out := s.out.write s.enc.outLen b
    enc := { s.enc with outLen := s.enc.outLen + 1 } }

/-- Emit bytes in order. -/
def emitBytes : List Byte → State → State
  | [], s => s
  | b :: bs, s => emitBytes bs (emitByte b s)

/-- Emit the bytes of an opcode. -/
def emitInstr (i : Instr) (s : State) : State := emitBytes (encode i) s

/-- `FlushRun()` (R125): emit RUN for `enc.run` pixels, `run <- 0`. -/
def flushRun (s : State) : State :=
  let s' := emitInstr (.run (s.enc.run - 1#6)) s
  { s' with enc := { s'.enc with run := 0#6 } }

/-- `enc.cache[hash(p)] <- p` (R127). -/
def encCachePixel (p : Pixel) (s : State) : State :=
  { s with enc := { s.enc with cache := s.enc.cache.write (hash p) p } }

/-! DEC -/

/-- `EmitPixel(p)` (R12): `PIX_OUT[out_count] <- p; out_count <- out_count + 1`. -/
def emitPixel (p : Pixel) (s : State) : State :=
  { s with
    pixOut := s.pixOut.write s.dec.outCount.toNat p
    dec := { s.dec with outCount := s.dec.outCount + 1#64 } }

/-- `EmitPixel(p)`, `n` times (R154). -/
def emitPixels : Nat → Pixel → State → State
  | 0, _, s => s
  | n + 1, p, s => emitPixels n p (emitPixel p s)

/-- `dec.prev <- p` (R160). -/
def decSetPrev (p : Pixel) (s : State) : State := { s with dec := { s.dec with prev := p } }

/-- `dec.cache[hash(p)] <- p`, unconditionally (R159). -/
def decCachePixel (p : Pixel) (s : State) : State :=
  { s with dec := { s.dec with cache := s.dec.cache.write (hash p) p } }

/-- Emit and set `prev`: the two effects of INDEX (R155). -/
def showPixel (p : Pixel) (s : State) : State := decSetPrev p (emitPixel p s)

/-- Emit, set `prev`, cache: the three effects of RGB, DIFF and LUMA (R152, R156, R157). -/
def deliverPixel (p : Pixel) (s : State) : State := decCachePixel p (showPixel p s)

/-- The end of an opcode step (R150): `pc <- pc + L` (R164), then the count test (R151). -/
def finishOpcode (len : Nat) (s : State) : State :=
  let d := { s.dec with pc := s.dec.pc + len }
  { s with dec := { d with phase := d.phaseAfterOpcode } }

/-- An opcode step whose body is `body` and whose length is `len`; enabled in OPCODES only (R150). -/
def opcodeStep (len : Nat) (body : State → State) (s : State) : Result :=
  if s.dec.phase = .opcodes then .next (finishOpcode len (body s)) else .fault .notEnabled

/-- Fault entry (R189), written once for the three faults: `cause`, `fault_pc`, `fault_byte`, `phase`, nothing else. -/
def takeFault (c : Cause) (s : State) : State :=
  { s with
    dec := { s.dec with
      cause := c
      faultPc := s.dec.pc
      faultByte := if c = .unsupportedOpcode then 0xff#8 else 0#8
      phase := .fault } }

/-- The fault that bytes which are no instruction raise (R180). -/
def faultOf : DecodeError → Cause
  | .endOfStream => .unexpectedEndOfStream
  | .badMagic => .formatError

end Sys2Proof.Machine
end

