-- ==== Sys2Proof/Machine/Exact.lean ====
section
/-! DEFINITION. The opcodes with an exact first byte: RGB (format X3) and RGBA (format X0). -/

namespace Sys2Proof.Machine

/-- RGB (R152): the payload is the pixel; emit it, `prev` and the cache take it; 4 bytes. -/
def execRgb (r g b : Byte) (s : State) : Result := opcodeStep 4 (deliverPixel ⟨r, g, b⟩) s

/-- RGBA (R153): raise `UnsupportedOpcode`. `pc` stays on the byte (decision D34). -/
def execRgba (s : State) : Result :=
  if s.dec.phase = .opcodes then .next (takeFault .unsupportedOpcode s) else .fault .notEnabled

end Sys2Proof.Machine
end

