-- ==== Sys2Proof/Machine/Header.lean ====
section
/-! DEFINITION. The header record: the decoder's two header steps and the encoder's one. -/

namespace Sys2Proof.Machine

/-- The decoder's magic step (R102), on the bytes of IN from position 0. -/
def magicStep (s : State) : State :=
  match decodeMagic (s.inp.window 0 4) with
  | .error e => takeFault (faultOf e) s
  | .ok _ => { s with dec := { s.dec with pc := 4 } }

/-- HEADER (R103, the dimensions step): latch the four fields, `n_total <- width * height`, `pc <- 14`; DONE when no pixel
is owed. Enabled in HEADER after the magic step, at `pc = 4` (log 9). -/
def execHeader (w h : Dim) (ch cs : Byte) (s : State) : Result :=
  if s.dec.phase = .header ∧ s.dec.pc = 4 then
    let d := { s.dec with
      width := w
      height := h
      channels := ch
      colorspace := cs
      nTotal := pixelTotal w h
      pc := Config.headerBytes }
    .next { s with dec := { d with phase := d.phaseAfterHeader } }
  else .fault .notEnabled

/-- The encoder's header step (R100): 14 bytes at offsets 0 to 13 of OUT, channels 3 and colorspace 1 (R101). -/
def encHeaderStep (s : State) : State :=
  { s with
    out := s.out.writeList 0 (encode (.header s.enc.width s.enc.height Config.hdrChannels Config.hdrColorspace))
    enc := { s.enc with outLen := Config.headerBytes, phase := s.enc.phaseAfterHeader } }

end Sys2Proof.Machine
end

