-- ==== Sys2Proof/Machine/Tagged.lean ====
section
/-! DEFINITION. The opcodes told apart by their top two bits: INDEX, DIFF, LUMA, RUN (formats T6 and T6N). -/

namespace Sys2Proof.Machine

/-- INDEX (R155): emit the slot the key names, set `prev`; the cache is untouched; 1 byte. -/
def execIndex (key : BitVec 6) (s : State) : Result :=
  opcodeStep 1 (showPixel (s.dec.cache.read key)) s

/-- DIFF (R156): `prev` plus the three deltas modulo 256; emit, `prev`, cache; 1 byte. -/
def execDiff (fr fg fb : BitVec 2) (s : State) : Result :=
  opcodeStep 1 (deliverPixel (reconstruct s.dec.prev (diffDelta fr fg fb))) s

/-- LUMA (R157): as DIFF, with the deltas of two bytes; 2 bytes. -/
def execLuma (fdg : BitVec 6) (frg fbg : BitVec 4) (s : State) : Result :=
  opcodeStep 2 (deliverPixel (reconstruct s.dec.prev (lumaDelta fdg frg fbg))) s

/-- RUN (R154): emit `prev` again, at most as often as pixels are owed; `prev` and the cache are untouched; 1 byte. -/
def execRun (len1 : BitVec 6) (s : State) : Result :=
  opcodeStep 1 (emitPixels (min (runLength len1) s.dec.owed) s.dec.prev) s

end Sys2Proof.Machine
end

