-- ==== Sys2Proof/Machine/Dispatch.lean ====
section
/-! DEFINITION. One arm per instruction. -/

namespace Sys2Proof.Machine

def exec (i : Instr) (s : State) : Host.Outcome State Fault Refusal :=
  match i with
  | .rgb r g b => Sys2Proof.Machine.execRgb r g b s
  | .rgba => Sys2Proof.Machine.execRgba s
  | .index key => Sys2Proof.Machine.execIndex key s
  | .diff fr fg fb => Sys2Proof.Machine.execDiff fr fg fb s
  | .luma fdg frg fbg => Sys2Proof.Machine.execLuma fdg frg fbg s
  | .run len1 => Sys2Proof.Machine.execRun len1 s
  | .header w h ch cs => Sys2Proof.Machine.execHeader w h ch cs s

end Sys2Proof.Machine
end

