-- ==== Sys2Proof/Machine/Decoder.lean ====
section
/-! DEFINITION. The decoder's next step: fetch, decode, execute (R102, R103, R150). -/

namespace Sys2Proof.Machine

/-- Run what a fetch decoded; bytes that are no instruction raise their fault, at the unchanged `pc` (R163, R189). -/
def execFetched (d : Except DecodeError (Instr × List Byte)) (s : State) : Result :=
  match d with
  | .error e => .next (takeFault (faultOf e) s)
  | .ok (i, _) => exec i s

/-- What DEC fetches for the dimensions step: the ten bytes of IN at 4 to 13 (R103). -/
def fetchDims (s : State) : Except DecodeError (Instr × List Byte) := decodeDims (s.inp.window 4 10)

/-- What DEC fetches for an opcode step: the bytes of IN from `pc` on (R150). -/
def fetchOpcode (s : State) : Except DecodeError (Instr × List Byte) :=
  decodeOpcode (s.inp.window s.dec.pc Config.maxOpcodeBytes)

/-- DEC's next step: the magic step, the dimensions step, an opcode step, or none (R41, R165). -/
def decStep (s : State) : Result :=
  match s.dec.phase with
  | .header =>
    if s.dec.pc = 0 then .next (magicStep s)
    else if s.dec.pc = 4 then execFetched (fetchDims s) s
    else .fault .decoderStuck
  | .opcodes => execFetched (fetchOpcode s) s
  | .idle => .fault .atRest
  | .done => .fault .atRest
  | .fault => .fault .atRest

end Sys2Proof.Machine
end

