-- ==== Sys2Proof/Machine/Encoder.lean ====
section
/-! DEFINITION. The encoder: the pixel step (R121) and the choice of ENC's next step. -/

namespace Sys2Proof.Machine

/-- The run branch (R122, R123): count the pixel, flush at 62 or at the last pixel. -/
def encRunBranch (s : State) : State :=
  let s' := { s with enc := { s.enc with run := s.enc.run + 1#6 } }
  if s'.enc.run = 62#6 ∨ s.enc.atLast = true then flushRun s' else s'

/-- The other branch (R124, R126, R127): flush a pending run, then INDEX on a hit; on a miss write the cache and emit the
opcode the classifier picks, with the delta taken against the old `prev` (R210). -/
def encOtherBranch (cur : Pixel) (s : State) : State :=
  let s' := if s.enc.runPending then flushRun s else s
  if s'.enc.cache.read (hash cur) = cur then emitInstr (.index (hash cur)) s'
  else emitInstr (missOpcode s'.enc.prev cur) (encCachePixel cur s')

/-- The end of a pixel step (R133, R134): `prev <- cur`, `in_count <- in_count + 1`, DONE after the last pixel. -/
def encFinish (cur : Pixel) (s : State) : State :=
  let e := { s.enc with prev := cur, inCount := s.enc.inCount + 1#64 }
  { s with enc := { e with phase := e.phaseAfterPixel } }

/-- The pixel step (R121): the run test comes first (R207). -/
def encPixelStep (cur : Pixel) (s : State) : State :=
  encFinish cur (if cur = s.enc.prev then encRunBranch s else encOtherBranch cur s)

/-- ENC's next step (R120): the header step, a pixel step, or none. -/
def encStep (s : State) : Result :=
  match s.enc.phase with
  | .header => .next (encHeaderStep s)
  | .pixels =>
    match s.pixIn.read s.enc.inCount.toNat with
    | some cur => .next (encPixelStep cur s)
    | none => .fault .encoderStuck
  | .idle => .fault .atRest
  | .done => .fault .atRest

end Sys2Proof.Machine
end

