-- ==== Sys2Proof/Machine/Start.lean ====
section
/-! DEFINITION. The host's side: the two start commands, which are the reset the spec defines (R200), and what the host
can read (R44). -/

namespace Sys2Proof.Machine

/-- ENC after `enc_start(w, h)` (R47 column 2, R200). -/
def Enc.started (w h : Dim) : Enc :=
  { Enc.powerOn with width := w, height := h, nTotal := pixelTotal w h, phase := .header }

/-- DEC after `dec_start` (R47 column 2, R200). -/
def Dec.started : Dec := { Dec.powerOn with phase := .header }

/-- `enc_start(w, h)` with the pixels of PIX_IN (R120, R200): every ENC register is written and OUT is empty.
Refused while an encode runs (R206). -/
def encStart (w h : Dim) (pixels : List Pixel) (s : State) : Result :=
  if s.enc.acceptsStart then
    .next { s with enc := Enc.started w h, pixIn := Memory.ofList pixels, out := [] }
  else .refused .startWhileBusy

/-- `dec_start` with the bytes of IN (R150, R200): every DEC register is written, the fault registers among them (R192),
and PIX_OUT is empty. Refused while a decode runs (R206). -/
def decStart (bytes : List Byte) (s : State) : Result :=
  if s.dec.acceptsStart then
    .next { s with dec := Dec.started, inp := Memory.ofList bytes, pixOut := [] }
  else .refused .startWhileBusy

/-- What the host can read (R44): the status registers and the two outputs; never `prev`, `run` or a cache. -/
structure HostView where
  encPhase : EncPhase
  outLen : Nat
  out : List Byte
  decPhase : DecPhase
  causeCode : Nat
  faultPc : Nat
  faultByte : Byte
  width : Dim
  height : Dim
  channels : Byte
  colorspace : Byte
  outCount : Count
  pixOut : List Pixel
deriving DecidableEq, Repr

/-- The host's view of a state (R44). -/
def State.hostView (s : State) : HostView where
  encPhase := s.enc.phase
  outLen := s.enc.outLen
  out := s.out.elements
  decPhase := s.dec.phase
  causeCode := s.dec.cause.code
  faultPc := s.dec.faultPc
  faultByte := s.dec.faultByte
  width := s.dec.width
  height := s.dec.height
  channels := s.dec.channels
  colorspace := s.dec.colorspace
  outCount := s.dec.outCount
  pixOut := s.pixOut.elements

/-- What `encode` returns: `OUT[0 .. out_len-1]`, once ENC is DONE (R134, R204). -/
def State.encodeResult (s : State) : Option (List Byte) :=
  match s.enc.phase with
  | .done => some (s.out.window 0 s.enc.outLen)
  | _ => none

/-- What `decode` returns: the pixels, width and height in DONE, and nothing in any other phase (R165, R190). -/
def State.decodeResult (s : State) : Option (List Pixel × Dim × Dim) :=
  match s.dec.phase with
  | .done => some (s.pixOut.window 0 s.dec.nTotal.toNat, s.dec.width, s.dec.height)
  | _ => none

end Sys2Proof.Machine
end

