-- ==== Sys2Proof/Machine/Schedule.lean ====
section
/-! DEFINITION. Who moves: the events of the agenda, and what happens when it is empty (log 2, 3, 4); and where the fetch
finds an instruction (log 11). -/

namespace Sys2Proof.Machine

/-- One event. A turn given to a block that has no step passes (log 3). -/
def runEvent (e : Event) (s : State) : Result :=
  match e with
  | .encStart w h pixels => encStart w h pixels s
  | .decStart bytes => decStart bytes s
  | .encTurn => if s.encReady then encStep s else .next s
  | .decTurn => if s.dec.ready then decStep s else .next s

/-- Why no block can move: ENC waits for a pixel, DEC is where no rule is enabled, or both are at rest. -/
def restReason (s : State) : Fault :=
  match s.enc.phase with
  | .pixels => .encoderStuck
  | _ =>
    match s.dec.phase with
    | .header => .decoderStuck
    | _ => .atRest

/-- With nothing on the agenda, DEC moves if it has a step, else ENC if it has one (log 4). -/
def restStep (s : State) : Result :=
  if s.dec.ready then decStep s
  else if s.encReady then encStep s
  else .fault (restReason s)

/-- Put the bytes of a table number where DEC fetches its next instruction, in the phase that fetches it (log 11):
HEADER at the start of IN, with the magic step behind it; an opcode at `pc`, with at least one pixel owed. -/
def placeFetch (s : State) (nbits w : Nat) : State :=
  if isRecordWord nbits w then
    { s with
      inp := s.inp.writeList 0 (tableBytes nbits w)
      dec := { s.dec with phase := .header, pc := 4 }
      agenda := [] }
  else
    { s with
      inp := s.inp.writeList s.dec.pc (tableBytes nbits w)
      dec := { s.dec with
        phase := .opcodes
        nTotal := if s.dec.outCount.toNat < s.dec.nTotal.toNat then s.dec.nTotal else s.dec.outCount + 1#64 }
      agenda := [] }

end Sys2Proof.Machine
end

