-- ==== Sys2Proof/Machine/Step.lean ====
section
/-! DEFINITION. One step of the machine. -/

namespace Sys2Proof.Machine

/-- The next event of the agenda, or, with none, the next step of a block. -/
def step (s : State) : Host.Outcome State Fault Refusal :=
  match s.agenda with
  | [] => restStep s
  | e :: rest => runEvent e { s with agenda := rest }

/-- `s` with the instruction of a table number where `step` fetches next (log 11). -/
def State.withFetchWord (s : State) (nbits w : Nat) : State := placeFetch s nbits w

end Sys2Proof.Machine
end

