-- ==== Sys2Proof/Safety.lean ====
section
/-! DEFINITION. What claims are stated in: the invariant of a step boundary, and predicates that say in the spec's own
arithmetic what a step emits, what it writes and what it leaves alone. -/

namespace Sys2Proof.Machine

/-! The invariant -/

/-- The positions of a sequence are exactly 0 to `n - 1`. -/
abbrev Memory.covers {α : Type} (m : Memory α) (n : Nat) : Prop := m.map Prod.fst = List.range n

/-- What holds of ENC and OUT at every step boundary. -/
structure EncInv (e : Enc) (out : Memory Byte) : Prop where
  /-- `run` lies in 0..61 (R25, R45). -/
  run_le : e.run.toNat ≤ 61
  /-- `n_total = width * height` (R28). -/
  total : e.nTotal.toNat = e.width.toNat * e.height.toNat
  /-- `in_count <= n_total` (R45). -/
  count_le : e.inCount.toNat ≤ e.nTotal.toNat
  /-- Before the header is emitted nothing has been consumed or emitted (R30, R200). -/
  fresh : e.phase = .idle ∨ e.phase = .header → e.inCount = 0#64 ∧ e.outLen = 0 ∧ e.run = 0#6
  /-- In PIXELS a pixel is still to come (R30). -/
  pixels : e.phase = .pixels → e.inCount.toNat < e.nTotal.toNat
  /-- In DONE all pixels are consumed and no run is pending (R30, R134). -/
  done : e.phase = .done → e.inCount = e.nTotal ∧ e.run = 0#6
  /-- OUT holds exactly the bytes 0 to `out_len - 1` (R29, R53). -/
  out_covers : out.covers e.outLen

/-- What holds of DEC and PIX_OUT at every step boundary. -/
structure DecInv (d : Dec) (pixOut : Memory Pixel) : Prop where
  /-- `dec.run` is 0 at every step boundary (R33). -/
  run_zero : d.run = 0#6
  /-- `n_total = width * height` (R34). -/
  total : d.nTotal.toNat = d.width.toNat * d.height.toNat
  /-- `out_count <= n_total` (R45). -/
  count_le : d.outCount.toNat ≤ d.nTotal.toNat
  /-- In HEADER `pc` is at one of the two header parts (R36, R41). -/
  header_pc : d.phase = .header → d.pc = 0 ∨ d.pc = 4
  /-- Before the first opcode nothing has been emitted and `prev` is the reset value (R47). -/
  fresh : d.phase = .idle ∨ d.phase = .header → d.outCount = 0#64
  /-- In OPCODES pixels are owed and the header is behind (R41, R61). -/
  opcodes : d.phase = .opcodes → d.outCount.toNat < d.nTotal.toNat ∧ 14 ≤ d.pc
  /-- In DONE the count is reached (R41, R151). -/
  done : d.phase = .done → d.outCount = d.nTotal
  /-- A cause is recorded exactly in FAULT (R42, R189, R192). -/
  fault_cause : d.phase = .fault ↔ d.cause ≠ .none
  /-- `fault_pc` is the unit that faulted, where `pc` still stands; 0 otherwise (R36, R42). -/
  fault_pc : d.faultPc = if d.phase = .fault then d.pc else 0
  /-- `fault_byte` is 0xff for UnsupportedOpcode and 0 otherwise (R42). -/
  fault_byte : d.faultByte = if d.cause = .unsupportedOpcode then 0xff#8 else 0#8
  /-- A FormatError comes before any pixel, at offset 0 (R181, R190). -/
  format_error : d.cause = .formatError → d.outCount = 0#64 ∧ d.pc = 0
  /-- PIX_OUT holds exactly the pixels 0 to `out_count - 1` (R37, R53). -/
  out_covers : pixOut.covers d.outCount.toNat
  /-- `prev` is the last pixel emitted, or black when none was (R31, R160). -/
  prev_last : (d.outCount = 0#64 ∧ d.prev = Pixel.black) ∨
    (0 < d.outCount.toNat ∧ pixOut.read (d.outCount.toNat - 1) = some d.prev)

/-- The invariant of the machine at a step boundary: both blocks', and both inputs sequences without holes (R50, R52). -/
structure State.Inv (s : State) : Prop where
  enc : EncInv s.enc s.out
  dec : DecInv s.dec s.pixOut
  pixIn_dense : s.pixIn.dense
  inp_dense : s.inp.dense

/-! What an opcode does -/

/-- DEC is in OPCODES with a pixel still owed: when an opcode executes (R150). -/
def Owes (s : State) : Prop := s.dec.phase = .opcodes ∧ s.dec.outCount.toNat < s.dec.nTotal.toNat

/-- `n` pixels `p` are appended to PIX_OUT at `out_count`; every other position reads as before. -/
def EmitsPixels (s t : State) (p : Pixel) (n : Nat) : Prop :=
  (∀ a, t.pixOut.read a =
    if s.dec.outCount.toNat ≤ a ∧ a < s.dec.outCount.toNat + n then some p else s.pixOut.read a) ∧
  t.dec.outCount.toNat = s.dec.outCount.toNat + n

/-- The cache holds `p` in slot `(3r + 5g + 7b) mod 64` and is unchanged in every other slot. -/
def CacheTakes (c c' : Cache) (p : Pixel) : Prop :=
  ∀ k : BitVec 6, c'.read k =
    if k.toNat = (3 * p.r.toNat + 5 * p.g.toNat + 7 * p.b.toNat) % 64 then p else c.read k

/-- `pc` moves past `len` bytes, and the count decides between DONE and OPCODES (R150, R164). -/
def AdvancesBy (s t : State) (len : Nat) : Prop :=
  t.dec.pc = s.dec.pc + len ∧ t.dec.phase = if t.dec.outCount = t.dec.nTotal then .done else .opcodes

/-- The frame of an opcode: everything but `prev`, the cache, `pc`, `out_count`, the phase and PIX_OUT. -/
def OpcodeFrame (s t : State) : Prop :=
  t.dec.run = s.dec.run ∧ t.dec.width = s.dec.width ∧ t.dec.height = s.dec.height ∧
  t.dec.nTotal = s.dec.nTotal ∧ t.dec.channels = s.dec.channels ∧ t.dec.colorspace = s.dec.colorspace ∧
  t.dec.cause = s.dec.cause ∧ t.dec.faultPc = s.dec.faultPc ∧ t.dec.faultByte = s.dec.faultByte ∧
  t.inp = s.inp ∧ t.agenda = s.agenda ∧ t.enc = s.enc ∧ t.out = s.out ∧ t.pixIn = s.pixIn

/-- The whole of what RGB, DIFF and LUMA do with the pixel `p` they form, `len` bytes long (R159, R160). -/
def Delivers (s t : State) (p : Pixel) (len : Nat) : Prop :=
  t.dec.prev = p ∧ EmitsPixels s t p 1 ∧ CacheTakes s.dec.cache t.dec.cache p ∧ AdvancesBy s t len ∧ OpcodeFrame s t

/-- `q + d` in every channel, modulo 256, as integers (R158). -/
def IsSumMod256 (q p : Pixel) (dr dg db : Int) : Prop :=
  (p.r.toNat : Int) = (q.r.toNat + dr) % 256 ∧
  (p.g.toNat : Int) = (q.g.toNat + dg) % 256 ∧
  (p.b.toNat : Int) = (q.b.toNat + db) % 256

/-- `t` is `s` after fault entry with cause `c` (R189): four registers, nothing else. -/
def FaultEntered (s t : State) (c : Cause) : Prop :=
  t.dec.cause = c ∧ t.dec.faultPc = s.dec.pc ∧
  t.dec.faultByte = (if c = .unsupportedOpcode then 0xff#8 else 0#8) ∧ t.dec.phase = .fault ∧
  t.dec.cache = s.dec.cache ∧ t.dec.prev = s.dec.prev ∧ t.dec.run = s.dec.run ∧ t.dec.width = s.dec.width ∧
  t.dec.height = s.dec.height ∧ t.dec.nTotal = s.dec.nTotal ∧ t.dec.channels = s.dec.channels ∧
  t.dec.colorspace = s.dec.colorspace ∧ t.dec.pc = s.dec.pc ∧ t.dec.outCount = s.dec.outCount ∧
  t.inp = s.inp ∧ t.pixOut = s.pixOut ∧ t.agenda = s.agenda ∧ t.enc = s.enc ∧ t.out = s.out ∧ t.pixIn = s.pixIn

/-! What a pixel step of ENC does -/

/-- ENC is in PIXELS, its next pixel is `cur`, a pixel is still to come, and `run` is as at every step boundary. -/
def EncHas (s : State) (cur : Pixel) : Prop :=
  s.enc.phase = .pixels ∧ s.pixIn.read s.enc.inCount.toNat = some cur ∧
  s.enc.inCount.toNat < s.enc.nTotal.toNat ∧ s.enc.run.toNat ≤ 61

/-- The bytes `bs` are appended to OUT at `out_len`; every other offset reads as before. -/
def AppendsBytes (s t : State) (bs : List Byte) : Prop :=
  (∀ a, t.out.read a =
    if s.enc.outLen ≤ a ∧ a < s.enc.outLen + bs.length then bs[a - s.enc.outLen]? else s.out.read a) ∧
  t.enc.outLen = s.enc.outLen + bs.length

/-- The end of every pixel step (R133, R134) and its frame: `prev`, `in_count`, the phase; the latched arguments, DEC and
the inputs stay. -/
def PixelConsumed (s t : State) (cur : Pixel) : Prop :=
  t.enc.prev = cur ∧ t.enc.inCount.toNat = s.enc.inCount.toNat + 1 ∧
  t.enc.phase = (if s.enc.inCount.toNat + 1 = s.enc.nTotal.toNat then .done else .pixels) ∧
  t.enc.width = s.enc.width ∧ t.enc.height = s.enc.height ∧ t.enc.nTotal = s.enc.nTotal ∧
  t.pixIn = s.pixIn ∧ t.agenda = s.agenda ∧ t.dec = s.dec ∧ t.inp = s.inp ∧ t.pixOut = s.pixOut

/-- The byte of a RUN of `n` pixels, `0xc0 | (n - 1)` (R76), as a number. -/
def runByte (n : Nat) : Byte := BitVec.ofNat 8 (0xc0 + (n - 1))

/-- What a pixel that differs from `prev` emits first: the pending run, if there is one (R124). -/
def pendingRun (s : State) : List Byte := if s.enc.run.toNat = 0 then [] else [runByte s.enc.run.toNat]

/-- The bounds of DIFF (R129). -/
abbrev InDiffBox (d : Delta) : Prop :=
  (-2 ≤ d.r ∧ d.r ≤ 1) ∧ (-2 ≤ d.g ∧ d.g ≤ 1) ∧ (-2 ≤ d.b ∧ d.b ≤ 1)

/-- The bounds of LUMA (R129). -/
abbrev InLumaBox (d : Delta) : Prop :=
  (-32 ≤ d.g ∧ d.g ≤ 31) ∧ (-8 ≤ d.r - d.g ∧ d.r - d.g ≤ 7) ∧ (-8 ≤ d.b - d.g ∧ d.b - d.g ≤ 7)

/-- The two blocks agree on what the next pixel is coded against (R48). -/
def Lockstep (s : State) : Prop := s.dec.prev = s.enc.prev ∧ s.dec.cache = s.enc.cache

/-- IN holds at `pc` the bytes that a step of ENC from `s` to `t` appended to OUT, in order. -/
def ReadsAppended (s t : State) : Prop :=
  ∀ k, k < t.enc.outLen - s.enc.outLen → t.inp.read (s.dec.pc + k) = t.out.read (s.enc.outLen + k)

/-- `k` steps lead from one state to another. -/
def Reaches : Nat → State → State → Prop
  | 0, s, t => t = s
  | k + 1, s, t => ∃ u, step s = .next u ∧ Reaches k u t

/-- A host command is the next event for DEC. -/
def StartsDecoder (s : State) : Prop := ∃ bytes rest, s.agenda = .decStart bytes :: rest

/-- A host command is the next event for ENC. -/
def StartsEncoder (s : State) : Prop := ∃ w h pixels rest, s.agenda = .encStart w h pixels :: rest

end Sys2Proof.Machine
end

