-- ==== Sys2Proof/Certificates/Slice0/Obligations.lean ====
section
/-! DEFINITION. The statements for the provers. Each docstring names the rule of spec/ it formalises; where a statement
rests on the model's own choice or on the spec's own inference, it says so. -/

open Sys2Proof Sys2Proof.Machine

/-! Values and fields -/

/-- R27, with the spec's own inference that truncating the sum first changes nothing ("the result is the same if each
product or the sum is first truncated to 8 or more bits"): the key is the sum modulo 64, and the low six bits of the sum
taken in 8 bits. -/
def Obligations.HashIsTheWeightedSumModulo64 : Prop :=
  ∀ p : Pixel,
    (hash p).toNat = (3 * p.r.toNat + 5 * p.g.toNat + 7 * p.b.toNat) % 64 ∧
    hash p = (3#8 * p.r + 5#8 * p.g + 7#8 * p.b).extractLsb' 0 6

/-- R22: subtraction is over the integers, in [-255, 255], and does not wrap. -/
def Obligations.PixelSubtractionDoesNotWrap : Prop :=
  ∀ p q : Pixel,
    (pixelSub p q).r = (p.r.toNat : Int) - q.r.toNat ∧ (pixelSub p q).g = (p.g.toNat : Int) - q.g.toNat ∧
    (pixelSub p q).b = (p.b.toNat : Int) - q.b.toNat ∧
    (-255 ≤ (pixelSub p q).r ∧ (pixelSub p q).r ≤ 255) ∧ (-255 ≤ (pixelSub p q).g ∧ (pixelSub p q).g ≤ 255) ∧
    (-255 ≤ (pixelSub p q).b ∧ (pixelSub p q).b ≤ 255)

/-- R20: `r` in bits 23:16, `g` in 15:8, `b` in 7:0 of the 24-bit form, which loses nothing. -/
def Obligations.PixelPacksInto24Bits : Prop :=
  ∀ p : Pixel,
    (packPixel p).toNat = p.r.toNat * 2 ^ 16 + p.g.toNat * 2 ^ 8 + p.b.toNat ∧ unpackPixel (packPixel p) = p ∧
    ∀ v : BitVec 24, packPixel (unpackPixel v) = v

/-- R158: each channel is the sum modulo 256. -/
def Obligations.ReconstructWrapsEachChannel : Prop :=
  ∀ (q : Pixel) (d : Delta), IsSumMod256 q (reconstruct q d) d.r d.g d.b

/-- R84: the three biased fields hold `d + B` and give `d` back; every field value is a delta in range; the LUMA red and
blue deltas are the differences plus the green delta, in [-40, 38]. -/
def Obligations.BiasedFieldsHoldTheirDeltas : Prop :=
  (∀ d : Int, -2 ≤ d → d ≤ 1 → ((biased 2 2 d).toNat : Int) = d + 2 ∧ unbias 2 (biased 2 2 d) = d) ∧
  (∀ d : Int, -32 ≤ d → d ≤ 31 → ((biased 6 32 d).toNat : Int) = d + 32 ∧ unbias 32 (biased 6 32 d) = d) ∧
  (∀ d : Int, -8 ≤ d → d ≤ 7 → ((biased 4 8 d).toNat : Int) = d + 8 ∧ unbias 8 (biased 4 8 d) = d) ∧
  (∀ fr fg fb : BitVec 2,
    (diffDelta fr fg fb).r = fr.toNat - 2 ∧ (diffDelta fr fg fb).g = fg.toNat - 2 ∧
    (diffDelta fr fg fb).b = fb.toNat - 2 ∧ InDiffBox (diffDelta fr fg fb)) ∧
  (∀ (fdg : BitVec 6) (frg fbg : BitVec 4),
    (lumaDelta fdg frg fbg).g = fdg.toNat - 32 ∧ (lumaDelta fdg frg fbg).r = (frg.toNat - 8) + (fdg.toNat - 32) ∧
    (lumaDelta fdg frg fbg).b = (fbg.toNat - 8) + (fdg.toNat - 32) ∧ InLumaBox (lumaDelta fdg frg fbg) ∧
    (-40 ≤ (lumaDelta fdg frg fbg).r ∧ (lumaDelta fdg frg fbg).r ≤ 38) ∧
    (-40 ≤ (lumaDelta fdg frg fbg).b ∧ (lumaDelta fdg frg fbg).b ≤ 38))

/-- R129: DIFF inside its box, LUMA inside its own and outside DIFF's, RGB otherwise. -/
def Obligations.ClassifierTestsDiffThenLuma : Prop :=
  ∀ d : Delta,
    (classify d = .diff ↔ InDiffBox d) ∧ (classify d = .luma ↔ ¬ InDiffBox d ∧ InLumaBox d) ∧
    (classify d = .rgb ↔ ¬ InDiffBox d ∧ ¬ InLumaBox d)

/-! Encoding -/

/-- Sanity: the header and the seven opcodes of program P1 of 95_test_vectors, and the reserved byte of P5 with the byte
after it, decode to what they stand for: at least one word for each row of the opcode table. -/
def Obligations.WordsOfTheSpecDecode : Prop :=
  decodeOpcode [0xfe#8, 0xc8#8, 0x64#8, 0x32#8] = .ok (.rgb 200#8 100#8 50#8, []) ∧
  decodeOpcode [0x7f#8] = .ok (.diff 3#2 3#2 3#2, []) ∧
  decodeOpcode [0xc1#8, 0x9a#8] = .ok (.run 1#6, [0x9a#8]) ∧
  decodeOpcode [0x9a#8, 0x38#8] = .ok (.luma 26#6 3#4 8#4, []) ∧
  decodeOpcode [0x2a#8] = .ok (.index 42#6, []) ∧
  decodeOpcode [0x00#8, 0xc0#8] = .ok (.index 0#6, [0xc0#8]) ∧
  decodeOpcode [0xc0#8] = .ok (.run 0#6, []) ∧
  decodeOpcode [0xff#8, 0x00#8] = .ok (.rgba, [0x00#8]) ∧
  decodeHeader [0x71#8, 0x6f#8, 0x69#8, 0x66#8, 0#8, 0#8, 0#8, 4#8, 0#8, 0#8, 0#8, 2#8, 3#8, 1#8] =
    .ok (.header 4#32 2#32 3#8 1#8, [])

/-- Decode and encode agree on every well-formed opcode, with every operand at every value, whatever bytes follow. -/
def Obligations.EveryOpcodeDecodesFromItsEncoding : Prop :=
  ∀ (i : Instr) (rest : List Byte), i.isOpcode = true → i.wellFormed = true →
    decodeOpcode (encode i ++ rest) = .ok (i, rest)

/-- Decode and encode agree on the header record, with every field at every value. -/
def Obligations.EveryHeaderDecodesFromItsEncoding : Prop :=
  ∀ (w h : Dim) (ch cs : Byte) (rest : List Byte),
    decodeHeader (encode (.header w h ch cs) ++ rest) = .ok (.header w h ch cs, rest) ∧
    (encode (.header w h ch cs)).length = 14

/-- The other direction: bytes that decode as an opcode (R73 to R78 by the dispatch of R80) are exactly the encoding of what
they decode to, which is well-formed; bytes that decode as a header record (R102, R103) are exactly its 14 bytes (R71). So
each word has one meaning. -/
def Obligations.DecodedBytesAreTheEncoding : Prop :=
  (∀ (bs : List Byte) (i : Instr) (rest : List Byte), decodeOpcode bs = .ok (i, rest) →
    bs = encode i ++ rest ∧ i.wellFormed = true ∧ i.isOpcode = true) ∧
  (∀ (bs : List Byte) (i : Instr) (rest : List Byte), decodeHeader bs = .ok (i, rest) → bs = encode i ++ rest)

/-- R82: the opcode map of the first byte, all 256 values, with the operand the table writes; every byte value has a row. -/
def Obligations.FirstByteMapIsTotal : Prop :=
  ∀ (b b1 b2 b3 : Byte) (rest : List Byte),
    (b.toNat ≤ 0x3f → ∃ key : BitVec 6, key.toNat = b.toNat ∧
      decodeOpcode (b :: b1 :: b2 :: b3 :: rest) = .ok (.index key, b1 :: b2 :: b3 :: rest)) ∧
    (0x40 ≤ b.toNat → b.toNat ≤ 0x7f → ∃ fr fg fb,
      decodeOpcode (b :: b1 :: b2 :: b3 :: rest) = .ok (.diff fr fg fb, b1 :: b2 :: b3 :: rest)) ∧
    (0x80 ≤ b.toNat → b.toNat ≤ 0xbf → ∃ fdg frg fbg,
      decodeOpcode (b :: b1 :: b2 :: b3 :: rest) = .ok (.luma fdg frg fbg, b2 :: b3 :: rest)) ∧
    (0xc0 ≤ b.toNat → b.toNat ≤ 0xfd → ∃ len1 : BitVec 6, runLength len1 = b.toNat - 0xbf ∧
      decodeOpcode (b :: b1 :: b2 :: b3 :: rest) = .ok (.run len1, b1 :: b2 :: b3 :: rest)) ∧
    (b.toNat = 0xfe → decodeOpcode (b :: b1 :: b2 :: b3 :: rest) = .ok (.rgb b1 b2 b3, rest)) ∧
    (b.toNat = 0xff → decodeOpcode (b :: b1 :: b2 :: b3 :: rest) = .ok (.rgba, b1 :: b2 :: b3 :: rest))

/-- R88 and R89: the bytes of every textual form whose operands are in range, and no bytes where one is not. -/
def Obligations.AssemblerFollowsItsTable : Prop :=
  (∀ w h ch cs : Nat, (Asm.headerWith w h ch cs).assemble =
    if w < 2 ^ 32 ∧ h < 2 ^ 32 ∧ ch ≤ 255 ∧ cs ≤ 255 then
      some ([0x71#8, 0x6f#8, 0x69#8, 0x66#8] ++
        [BitVec.ofNat 8 (w / 2 ^ 24), BitVec.ofNat 8 (w / 2 ^ 16), BitVec.ofNat 8 (w / 2 ^ 8), BitVec.ofNat 8 w] ++
        [BitVec.ofNat 8 (h / 2 ^ 24), BitVec.ofNat 8 (h / 2 ^ 16), BitVec.ofNat 8 (h / 2 ^ 8), BitVec.ofNat 8 h] ++
        [BitVec.ofNat 8 ch, BitVec.ofNat 8 cs])
    else none) ∧
  (∀ w h : Nat, (Asm.header w h).assemble = (Asm.headerWith w h 3 1).assemble) ∧
  (∀ k : Nat, (Asm.index k).assemble = if k ≤ 63 then some [BitVec.ofNat 8 k] else none) ∧
  (∀ dr dg db : Int, (Asm.diff dr dg db).assemble =
    if InDiffBox ⟨dr, dg, db⟩ then some [BitVec.ofInt 8 (0x40 + 16 * (dr + 2) + 4 * (dg + 2) + (db + 2))] else none) ∧
  (∀ dg drg dbg : Int, (Asm.luma dg drg dbg).assemble =
    if (-32 ≤ dg ∧ dg ≤ 31) ∧ (-8 ≤ drg ∧ drg ≤ 7) ∧ (-8 ≤ dbg ∧ dbg ≤ 7) then
      some [BitVec.ofInt 8 (0x80 + (dg + 32)), BitVec.ofInt 8 (16 * (drg + 8) + (dbg + 8))]
    else none) ∧
  (∀ n : Nat, (Asm.run n).assemble = if 1 ≤ n ∧ n ≤ 62 then some [BitVec.ofNat 8 (0xc0 + (n - 1))] else none) ∧
  (∀ r g b : Nat, (Asm.rgb r g b).assemble =
    if r ≤ 255 ∧ g ≤ 255 ∧ b ≤ 255 then
      some [0xfe#8, BitVec.ofNat 8 r, BitVec.ofNat 8 g, BitVec.ofNat 8 b]
    else none) ∧
  Asm.rgba.assemble = some [0xff#8] ∧
  (∀ v : Nat, (Asm.byte v).assemble = if v ≤ 255 then some [BitVec.ofNat 8 v] else none)

/-! Reset and start -/

/-- R201: the power-on values of column 3 of R47. (That the four sequences are empty is the model's choice, log 15, and is
not claimed here.) -/
def Obligations.PowerOnIsZeroAndIdle : Prop :=
  (∀ k, State.reset.enc.cache.read k = ⟨0#8, 0#8, 0#8⟩) ∧ State.reset.enc.prev = ⟨0#8, 0#8, 0#8⟩ ∧
  State.reset.enc.run = 0#6 ∧ State.reset.enc.width = 0#32 ∧ State.reset.enc.height = 0#32 ∧
  State.reset.enc.nTotal = 0#64 ∧ State.reset.enc.inCount = 0#64 ∧ State.reset.enc.outLen = 0 ∧
  State.reset.enc.phase = .idle ∧
  (∀ k, State.reset.dec.cache.read k = ⟨0#8, 0#8, 0#8⟩) ∧ State.reset.dec.prev = ⟨0#8, 0#8, 0#8⟩ ∧
  State.reset.dec.run = 0#6 ∧ State.reset.dec.width = 0#32 ∧ State.reset.dec.height = 0#32 ∧
  State.reset.dec.nTotal = 0#64 ∧ State.reset.dec.channels = 0#8 ∧ State.reset.dec.colorspace = 0#8 ∧
  State.reset.dec.pc = 0 ∧ State.reset.dec.outCount = 0#64 ∧ State.reset.dec.phase = .idle ∧
  State.reset.dec.cause = .none ∧ State.reset.dec.faultPc = 0 ∧ State.reset.dec.faultByte = 0#8

/-- The invariant holds after power-on (with the model's empty sequences, log 15). -/
def Obligations.PowerOnMeetsTheInvariant : Prop := State.reset.Inv

/-- R200: each start command writes every register of its block with column 2 of R47, whatever the block held before,
empties its output, and leaves the other block alone. -/
def Obligations.StartCommandsWriteEveryRegister : Prop :=
  (∀ (s : State) (w h : Dim) (px : List Pixel) (es : List Event),
    s.agenda = .encStart w h px :: es → s.enc.phase = .idle ∨ s.enc.phase = .done →
    ∃ t, step s = .next t ∧ (∀ k, t.enc.cache.read k = ⟨0#8, 0#8, 0#8⟩) ∧ t.enc.prev = ⟨0#8, 0#8, 0#8⟩ ∧
      t.enc.run = 0#6 ∧ t.enc.width = w ∧ t.enc.height = h ∧ t.enc.nTotal.toNat = w.toNat * h.toNat ∧
      t.enc.inCount = 0#64 ∧ t.enc.outLen = 0 ∧ t.enc.phase = .header ∧ (∀ a, t.out.read a = none) ∧
      t.agenda = es ∧ t.dec = s.dec ∧ t.inp = s.inp ∧ t.pixOut = s.pixOut) ∧
  (∀ (s : State) (bs : List Byte) (es : List Event),
    s.agenda = .decStart bs :: es → s.dec.phase = .idle ∨ s.dec.phase = .done ∨ s.dec.phase = .fault →
    ∃ t, step s = .next t ∧ (∀ k, t.dec.cache.read k = ⟨0#8, 0#8, 0#8⟩) ∧ t.dec.prev = ⟨0#8, 0#8, 0#8⟩ ∧
      t.dec.run = 0#6 ∧ t.dec.width = 0#32 ∧ t.dec.height = 0#32 ∧ t.dec.nTotal = 0#64 ∧ t.dec.channels = 0#8 ∧
      t.dec.colorspace = 0#8 ∧ t.dec.pc = 0 ∧ t.dec.outCount = 0#64 ∧ t.dec.cause = .none ∧ t.dec.faultPc = 0 ∧
      t.dec.faultByte = 0#8 ∧ t.dec.phase = .header ∧ (∀ a, t.pixOut.read a = none) ∧
      t.agenda = es ∧ t.enc = s.enc ∧ t.out = s.out ∧ t.pixIn = s.pixIn)

/-- A start command to a busy block is refused by name: what the model does where R206 and R197(b) give no meaning
(log 5). -/
def Obligations.StartWhileBusyIsRefused : Prop :=
  (∀ (s : State) (w h : Dim) (px : List Pixel) (es : List Event), s.agenda = .encStart w h px :: es →
    s.enc.phase = .header ∨ s.enc.phase = .pixels → step s = .refused .startWhileBusy) ∧
  (∀ (s : State) (bs : List Byte) (es : List Event), s.agenda = .decStart bs :: es →
    s.dec.phase = .header ∨ s.dec.phase = .opcodes → step s = .refused .startWhileBusy)

/-! The step -/

/-- What `step` adds around a block's step is the model's (log 2, 3, 4): an event is taken off the agenda; with none, DEC
moves if it can, else ENC; a turn given to a block that has no step passes; with nobody to move the step stops by name
(log 6, 7). -/
def Obligations.AgendaDrivesTheStep : Prop :=
  (∀ (s : State) (e : Event) (es : List Event), s.agenda = e :: es → step s = runEvent e { s with agenda := es }) ∧
  (∀ s : State, s.agenda = [] → s.dec.ready = true → step s = runEvent .decTurn s) ∧
  (∀ s : State, s.agenda = [] → s.dec.ready = false → s.encReady = true → step s = runEvent .encTurn s) ∧
  (∀ s : State, s.dec.ready = false → runEvent .decTurn s = .next s) ∧
  (∀ s : State, s.encReady = false → runEvent .encTurn s = .next s) ∧
  (∀ s : State, s.agenda = [] → s.dec.phase = .idle ∨ s.dec.phase = .done ∨ s.dec.phase = .fault →
    s.enc.phase = .idle ∨ s.enc.phase = .done → step s = .fault .atRest)

/-- A step runs the decoded instruction: when the bytes of IN at `pc` decode to an opcode, the step is that opcode's; and
when the bytes of the header record decode, the step at `pc = 4` is HEADER's. DEC's turn adds nothing around `exec`. -/
def Obligations.StepRunsTheDecodedInstruction : Prop :=
  (∀ (s : State) (bs : List Byte) (i : Instr) (rest : List Byte),
    s.dec.phase = .opcodes → bs.length ≤ 4 → (∀ k, k < bs.length → s.inp.read (s.dec.pc + k) = bs[k]?) →
    decodeOpcode bs = .ok (i, rest) →
    runEvent .decTurn s = exec i s ∧ (s.agenda = [] → step s = exec i s) ∧
      ∀ es, s.agenda = .decTurn :: es → step s = exec i { s with agenda := es }) ∧
  (∀ (s : State) (bs : List Byte) (i : Instr) (rest : List Byte),
    s.dec.phase = .header → s.dec.pc = 4 → bs.length = 14 → (∀ k, k < 14 → s.inp.read k = bs[k]?) →
    decodeHeader bs = .ok (i, rest) →
    runEvent .decTurn s = exec i s ∧ (s.agenda = [] → step s = exec i s) ∧
      ∀ es, s.agenda = .decTurn :: es → step s = exec i { s with agenda := es })

/-! The decoder -/

/-- R102: the magic step, with both of its faults; a short stream is a truncated one even if it is already wrong. -/
def Obligations.MagicStepChecksFourBytes : Prop :=
  ∀ s : State, s.dec.phase = .header → s.dec.pc = 0 → s.inp.dense →
    (s.inp.length < 4 → ∃ t, runEvent .decTurn s = .next t ∧ FaultEntered s t .unexpectedEndOfStream) ∧
    (4 ≤ s.inp.length →
      (s.inp.read 0 = some 0x71#8 ∧ s.inp.read 1 = some 0x6f#8 ∧ s.inp.read 2 = some 0x69#8 ∧
        s.inp.read 3 = some 0x66#8 →
        runEvent .decTurn s = .next { s with dec := { s.dec with pc := 4 } }) ∧
      (¬ (s.inp.read 0 = some 0x71#8 ∧ s.inp.read 1 = some 0x6f#8 ∧ s.inp.read 2 = some 0x69#8 ∧
        s.inp.read 3 = some 0x66#8) →
        ∃ t, runEvent .decTurn s = .next t ∧ FaultEntered s t .formatError))

/-- R103: HEADER latches the four fields and the product; the fields are big-endian; a header cut short faults at 4 and
writes none of the five registers. -/
def Obligations.HeaderLatchesTheDimensions : Prop :=
  (∀ (s : State) (w h : Dim) (ch cs : Byte), s.dec.phase = .header → s.dec.pc = 4 →
    ∃ t, exec (.header w h ch cs) s = .next t ∧
      t.dec.width = w ∧ t.dec.height = h ∧ t.dec.channels = ch ∧ t.dec.colorspace = cs ∧
      t.dec.nTotal.toNat = w.toNat * h.toNat ∧ t.dec.pc = 14 ∧
      t.dec.phase = (if w.toNat * h.toNat = 0 then .done else .opcodes) ∧
      t.dec.cache = s.dec.cache ∧ t.dec.prev = s.dec.prev ∧ t.dec.run = s.dec.run ∧
      t.dec.outCount = s.dec.outCount ∧ t.dec.cause = s.dec.cause ∧ t.dec.faultPc = s.dec.faultPc ∧
      t.dec.faultByte = s.dec.faultByte ∧ t.inp = s.inp ∧ t.pixOut = s.pixOut ∧ t.agenda = s.agenda ∧
      t.enc = s.enc ∧ t.out = s.out ∧ t.pixIn = s.pixIn) ∧
  (∀ (w0 w1 w2 w3 h0 h1 h2 h3 ch cs : Byte) (rest : List Byte), ∃ w h : Dim,
    decodeDims (w0 :: w1 :: w2 :: w3 :: h0 :: h1 :: h2 :: h3 :: ch :: cs :: rest) = .ok (.header w h ch cs, rest) ∧
    w.toNat = w0.toNat * 2 ^ 24 + w1.toNat * 2 ^ 16 + w2.toNat * 2 ^ 8 + w3.toNat ∧
    h.toNat = h0.toNat * 2 ^ 24 + h1.toNat * 2 ^ 16 + h2.toNat * 2 ^ 8 + h3.toNat) ∧
  (∀ s : State, s.dec.phase = .header → s.dec.pc = 4 → s.inp.dense → s.inp.length < 14 →
    ∃ t, runEvent .decTurn s = .next t ∧ FaultEntered s t .unexpectedEndOfStream)

/-- R152: RGB delivers its payload; first byte `0xfe`; a missing payload byte faults with no effect. -/
def Obligations.RgbDeliversItsPayload : Prop :=
  (∀ (s : State) (r g b : Byte), Owes s → ∃ t, exec (.rgb r g b) s = .next t ∧ Delivers s t ⟨r, g, b⟩ 4) ∧
  (∀ (r g b : Byte) (rest : List Byte), decodeOpcode (0xfe#8 :: r :: g :: b :: rest) = .ok (.rgb r g b, rest)) ∧
  (∀ s : State, s.dec.phase = .opcodes → s.inp.dense → s.inp.read s.dec.pc = some 0xfe#8 →
    s.inp.length < s.dec.pc + 4 →
    ∃ t, runEvent .decTurn s = .next t ∧ FaultEntered s t .unexpectedEndOfStream)

/-- R153: RGBA raises UnsupportedOpcode, whatever follows the byte, and nothing else raises it. -/
def Obligations.RgbaRaisesUnsupportedOpcode : Prop :=
  (∀ s : State, s.dec.phase = .opcodes →
    ∃ t, exec .rgba s = .next t ∧ FaultEntered s t .unsupportedOpcode) ∧
  (∀ rest : List Byte, decodeOpcode (0xff#8 :: rest) = .ok (.rgba, rest)) ∧
  (∀ s : State, s.dec.phase = .opcodes → s.inp.read s.dec.pc = some 0xff#8 → runEvent .decTurn s = exec .rgba s) ∧
  (∀ s t : State, step s = .next t → s.dec.cause ≠ .unsupportedOpcode → t.dec.cause = .unsupportedOpcode →
    s.dec.phase = .opcodes ∧ s.inp.read s.dec.pc = some 0xff#8)

/-- R154: RUN emits `prev` again, clipped at the pixel count; `prev` and the cache are not written. -/
def Obligations.RunRepeatsThePreviousPixel : Prop :=
  (∀ (s : State) (len1 : BitVec 6), Owes s →
    ∃ t, exec (.run len1) s = .next t ∧
      EmitsPixels s t s.dec.prev (min (len1.toNat + 1) (s.dec.nTotal.toNat - s.dec.outCount.toNat)) ∧
      t.dec.prev = s.dec.prev ∧ t.dec.cache = s.dec.cache ∧ AdvancesBy s t 1 ∧ OpcodeFrame s t) ∧
  (∀ (b : Byte) (rest : List Byte), 0xc0 ≤ b.toNat → b.toNat ≤ 0xfd →
    decodeOpcode (b :: rest) = .ok (.run (BitVec.ofNat 6 (b.toNat - 0xc0)), rest))

/-- R155: INDEX emits the slot its key names and sets `prev`; the cache is untouched. -/
def Obligations.IndexEmitsTheSlotOfItsKey : Prop :=
  (∀ (s : State) (key : BitVec 6), Owes s →
    ∃ t, exec (.index key) s = .next t ∧ EmitsPixels s t (s.dec.cache.read key) 1 ∧
      t.dec.prev = s.dec.cache.read key ∧ t.dec.cache = s.dec.cache ∧ AdvancesBy s t 1 ∧ OpcodeFrame s t) ∧
  (∀ (b : Byte) (rest : List Byte), b.toNat ≤ 0x3f →
    decodeOpcode (b :: rest) = .ok (.index (BitVec.ofNat 6 b.toNat), rest))

/-- R156: DIFF delivers `prev` plus three deltas of -2 to 1, modulo 256. -/
def Obligations.DiffAddsSmallDeltas : Prop :=
  (∀ (s : State) (fr fg fb : BitVec 2), Owes s →
    ∃ t p, exec (.diff fr fg fb) s = .next t ∧
      IsSumMod256 s.dec.prev p (fr.toNat - 2) (fg.toNat - 2) (fb.toNat - 2) ∧ Delivers s t p 1) ∧
  (∀ (b : Byte) (rest : List Byte), 0x40 ≤ b.toNat → b.toNat ≤ 0x7f →
    decodeOpcode (b :: rest) = .ok (.diff (BitVec.ofNat 2 (b.toNat / 16)) (BitVec.ofNat 2 (b.toNat / 4))
      (BitVec.ofNat 2 b.toNat), rest))

/-- R157: LUMA delivers `prev` plus its deltas, which are added over the integers before the modulus; a missing second
byte faults with no effect. -/
def Obligations.LumaAddsDeltasFromGreen : Prop :=
  (∀ (s : State) (fdg : BitVec 6) (frg fbg : BitVec 4), Owes s →
    ∃ t p, exec (.luma fdg frg fbg) s = .next t ∧
      IsSumMod256 s.dec.prev p ((frg.toNat - 8) + (fdg.toNat - 32)) (fdg.toNat - 32)
        ((fbg.toNat - 8) + (fdg.toNat - 32)) ∧ Delivers s t p 2) ∧
  (∀ (b b2 : Byte) (rest : List Byte), 0x80 ≤ b.toNat → b.toNat ≤ 0xbf →
    decodeOpcode (b :: b2 :: rest) = .ok (.luma (BitVec.ofNat 6 b.toNat) (BitVec.ofNat 4 (b2.toNat / 16))
      (BitVec.ofNat 4 b2.toNat), rest)) ∧
  (∀ (s : State) (b : Byte), s.dec.phase = .opcodes → s.inp.dense → s.inp.read s.dec.pc = some b →
    0x80 ≤ b.toNat → b.toNat ≤ 0xbf → s.inp.length < s.dec.pc + 2 →
    ∃ t, runEvent .decTurn s = .next t ∧ FaultEntered s t .unexpectedEndOfStream)

/-- R159 and R160: after an opcode that did not fault, `prev` is the last pixel emitted; RGB, DIFF and LUMA write it to
the slot of its own hash, RUN and INDEX write no slot, RUN leaves `prev`. -/
def Obligations.OpcodesKeepPrevAndCacheRules : Prop :=
  ∀ (i : Instr) (s t : State), Owes s → exec i s = .next t → t.dec.phase ≠ .fault →
    s.dec.outCount.toNat < t.dec.outCount.toNat ∧
    t.pixOut.read (t.dec.outCount.toNat - 1) = some t.dec.prev ∧
    (((∃ r g b, i = .rgb r g b) ∨ (∃ fr fg fb, i = .diff fr fg fb) ∨ (∃ fdg frg fbg, i = .luma fdg frg fbg)) ∧
        CacheTakes s.dec.cache t.dec.cache t.dec.prev ∨
      (∃ key, i = .index key) ∧ t.dec.cache = s.dec.cache ∨
      (∃ len1, i = .run len1) ∧ t.dec.cache = s.dec.cache ∧ t.dec.prev = s.dec.prev)

/-- R163: a first byte that does not exist, or a payload that passes the end, raises UnexpectedEndOfStream at the opcode;
and in OPCODES nothing else does. -/
def Obligations.TruncatedOpcodeFaults : Prop :=
  ∀ s : State, s.dec.phase = .opcodes → s.inp.dense →
    ((s.inp.length ≤ s.dec.pc ∨ (s.inp.read s.dec.pc = some 0xfe#8 ∧ s.inp.length < s.dec.pc + 4) ∨
        (∃ b : Byte, s.inp.read s.dec.pc = some b ∧ 0x80 ≤ b.toNat ∧ b.toNat ≤ 0xbf ∧
          s.inp.length < s.dec.pc + 2)) →
      ∃ t, runEvent .decTurn s = .next t ∧ FaultEntered s t .unexpectedEndOfStream) ∧
    (∀ t, runEvent .decTurn s = .next t → s.dec.cause ≠ .unexpectedEndOfStream →
      t.dec.cause = .unexpectedEndOfStream →
      s.inp.length ≤ s.dec.pc ∨ (s.inp.read s.dec.pc = some 0xfe#8 ∧ s.inp.length < s.dec.pc + 4) ∨
        (∃ b : Byte, s.inp.read s.dec.pc = some b ∧ 0x80 ≤ b.toNat ∧ b.toNat ≤ 0xbf ∧
          s.inp.length < s.dec.pc + 2))

/-- R151: after the dimensions step and after every opcode step DEC is in DONE exactly when the count is reached, unless it
faulted; and with the count reached it has no step, so no byte is examined. -/
def Obligations.TerminationIsByCount : Prop :=
  ∀ s t : State, s.Inv → s.dec.phase = .opcodes ∨ (s.dec.phase = .header ∧ s.dec.pc = 4) →
    runEvent .decTurn s = .next t →
    t.dec.phase = .fault ∨
    (t.dec.phase = .done ∧ t.dec.outCount = t.dec.nTotal ∧ t.dec.ready = false) ∨
    (t.dec.phase = .opcodes ∧ t.dec.outCount.toNat < t.dec.nTotal.toNat)

/-- Each opcode step that does not fault emits at least one pixel, which is the spec's inference in R214 ("each opcode step
emits at least one pixel or faults"); so a decode ends. -/
def Obligations.EveryOpcodeStepMakesProgress : Prop :=
  ∀ s : State, s.Inv → s.dec.phase = .opcodes →
    ∃ t, runEvent .decTurn s = .next t ∧
      (t.dec.phase = .fault ∨
        s.dec.nTotal.toNat - t.dec.outCount.toNat < s.dec.nTotal.toNat - s.dec.outCount.toNat ∧
        t.dec.nTotal = s.dec.nTotal)

/-- Every decode ends: whatever the bytes, DEC is in DONE or FAULT after the start command and at most `2 + N` steps, the
spec's inference in R214. -/
def Obligations.EveryDecodeEnds : Prop :=
  ∀ bytes : List Byte, ∃ (k : Nat) (t : State),
    Reaches k { State.reset with agenda := [.decStart bytes] } t ∧
    (t.dec.phase = .done ∨ t.dec.phase = .fault) ∧ k ≤ 1 + (2 + t.dec.nTotal.toNat)

/-- R189: every step that brings DEC into FAULT writes the cause, `fault_pc`, `fault_byte` and the phase, and nothing else
of the machine but the event it takes. -/
def Obligations.FaultEntryWritesNothingElse : Prop :=
  ∀ s t : State, step s = .next t → s.dec.phase ≠ .fault → t.dec.phase = .fault →
    ∃ c, c ≠ .none ∧ FaultEntered { s with agenda := s.agenda.tail } t c

/-- R192 and R161: in DONE and in FAULT nothing but `dec_start` changes the decoder, its output or its input, whatever
bytes are left; `dec_start` resets all of DEC, the fault registers among it. -/
def Obligations.DoneAndFaultAreLeftOnlyByStart : Prop :=
  ∀ s t : State, step s = .next t → s.dec.phase = .done ∨ s.dec.phase = .fault →
    (¬ StartsDecoder s → t.dec = s.dec ∧ t.pixOut = s.pixOut ∧ t.inp = s.inp) ∧
    (StartsDecoder s → t.dec.phase = .header ∧ t.dec.cause = .none ∧ t.dec.faultPc = 0 ∧ t.dec.faultByte = 0#8 ∧
      (∀ k, t.dec.cache.read k = ⟨0#8, 0#8, 0#8⟩) ∧ t.dec.prev = ⟨0#8, 0#8, 0#8⟩ ∧ t.dec.run = 0#6 ∧ t.dec.pc = 0 ∧
      t.dec.outCount = 0#64 ∧ t.dec.width = 0#32 ∧ t.dec.height = 0#32 ∧ t.dec.nTotal = 0#64 ∧
      t.dec.channels = 0#8 ∧ t.dec.colorspace = 0#8)

/-- R165: DONE has the result, FAULT and every other phase has none, and DEC has no step in DONE or FAULT. -/
def Obligations.ResultIsDefinedOnlyInDone : Prop :=
  ∀ s : State, s.Inv →
    (s.dec.phase = .done → ∃ px, s.decodeResult = some (px, s.dec.width, s.dec.height) ∧
      px.length = s.dec.width.toNat * s.dec.height.toNat ∧ ∀ i, px[i]? = s.pixOut.read i) ∧
    (s.dec.phase ≠ .done → s.decodeResult = none) ∧
    (s.dec.phase = .done ∨ s.dec.phase = .fault → s.dec.ready = false ∧ ∀ t, decStep s ≠ .next t)

/-- `pc` never moves backwards and advances by 4, 10, 1, 2 or 4 or not at all (R36, R164), but for `dec_start`. -/
def Obligations.PcNeverMovesBackwards : Prop :=
  ∀ s t : State, step s = .next t → ¬ StartsDecoder s →
    ∃ n, n ∈ [0, 1, 2, 4, 10] ∧ t.dec.pc = s.dec.pc + n

/-! The encoder -/

/-- R100 and R101: the fourteen bytes of the header, and nothing else but `out_len` and the phase. -/
def Obligations.EncoderEmitsTheHeader : Prop :=
  ∀ s : State, s.enc.phase = .header →
    ∃ t, runEvent .encTurn s = .next t ∧
      t.out.read 0 = some 0x71#8 ∧ t.out.read 1 = some 0x6f#8 ∧ t.out.read 2 = some 0x69#8 ∧
      t.out.read 3 = some 0x66#8 ∧
      t.out.read 4 = some (BitVec.ofNat 8 (s.enc.width.toNat / 2 ^ 24)) ∧
      t.out.read 5 = some (BitVec.ofNat 8 (s.enc.width.toNat / 2 ^ 16)) ∧
      t.out.read 6 = some (BitVec.ofNat 8 (s.enc.width.toNat / 2 ^ 8)) ∧
      t.out.read 7 = some (BitVec.ofNat 8 s.enc.width.toNat) ∧
      t.out.read 8 = some (BitVec.ofNat 8 (s.enc.height.toNat / 2 ^ 24)) ∧
      t.out.read 9 = some (BitVec.ofNat 8 (s.enc.height.toNat / 2 ^ 16)) ∧
      t.out.read 10 = some (BitVec.ofNat 8 (s.enc.height.toNat / 2 ^ 8)) ∧
      t.out.read 11 = some (BitVec.ofNat 8 s.enc.height.toNat) ∧
      t.out.read 12 = some 3#8 ∧ t.out.read 13 = some 1#8 ∧
      (∀ a, 14 ≤ a → t.out.read a = s.out.read a) ∧
      t.enc = { s.enc with outLen := 14, phase := if s.enc.nTotal = 0#64 then .done else .pixels } ∧
      t.pixIn = s.pixIn ∧ t.agenda = s.agenda ∧ t.dec = s.dec ∧ t.inp = s.inp ∧ t.pixOut = s.pixOut

/-- R122 and R123: a pixel equal to `prev` is counted; at 62, or at the last pixel, one RUN byte is emitted in that very
step and the counter returns to 0. The cache is untouched. -/
def Obligations.EqualPixelIsCountedOrFlushed : Prop :=
  ∀ s : State, EncHas s s.enc.prev →
    ∃ t, runEvent .encTurn s = .next t ∧ PixelConsumed s t s.enc.prev ∧ t.enc.cache = s.enc.cache ∧
      if s.enc.run.toNat + 1 = 62 ∨ s.enc.inCount.toNat + 1 = s.enc.nTotal.toNat then
        AppendsBytes s t [runByte (s.enc.run.toNat + 1)] ∧ t.enc.run = 0#6
      else AppendsBytes s t [] ∧ t.enc.run.toNat = s.enc.run.toNat + 1

/-- R124 and R126: a pixel that differs from `prev` and is in its cache slot emits the pending run, if any, and then INDEX
with its key; the cache is not written. -/
def Obligations.CachedPixelEmitsIndex : Prop :=
  ∀ (s : State) (cur : Pixel) (key : BitVec 6), EncHas s cur → cur ≠ s.enc.prev →
    key.toNat = (3 * cur.r.toNat + 5 * cur.g.toNat + 7 * cur.b.toNat) % 64 → s.enc.cache.read key = cur →
    ∃ t, runEvent .encTurn s = .next t ∧ PixelConsumed s t cur ∧
      AppendsBytes s t (pendingRun s ++ [BitVec.ofNat 8 key.toNat]) ∧ t.enc.run = 0#6 ∧ t.enc.cache = s.enc.cache

/-- R127 to R132: a pixel that differs from `prev` and from its cache slot takes the slot and emits, after the pending run
if any (R124), DIFF, LUMA or RGB by its unwrapped difference from the old `prev`. -/
def Obligations.MissedPixelEmitsDiffLumaOrRgb : Prop :=
  ∀ (s : State) (cur : Pixel) (key : BitVec 6), EncHas s cur → cur ≠ s.enc.prev →
    key.toNat = (3 * cur.r.toNat + 5 * cur.g.toNat + 7 * cur.b.toNat) % 64 → s.enc.cache.read key ≠ cur →
    ∃ (t : State) (bs : List Byte) (dr dg db : Int),
      dr = (cur.r.toNat : Int) - s.enc.prev.r.toNat ∧ dg = (cur.g.toNat : Int) - s.enc.prev.g.toNat ∧
      db = (cur.b.toNat : Int) - s.enc.prev.b.toNat ∧
      bs = (if InDiffBox ⟨dr, dg, db⟩ then [BitVec.ofInt 8 (0x40 + 16 * (dr + 2) + 4 * (dg + 2) + (db + 2))]
        else if InLumaBox ⟨dr, dg, db⟩ then
          [BitVec.ofInt 8 (0x80 + (dg + 32)), BitVec.ofInt 8 (16 * (dr - dg + 8) + (db - dg + 8))]
        else [0xfe#8, cur.r, cur.g, cur.b]) ∧
      runEvent .encTurn s = .next t ∧ PixelConsumed s t cur ∧ AppendsBytes s t (pendingRun s ++ bs) ∧
      t.enc.run = 0#6 ∧ CacheTakes s.enc.cache t.enc.cache cur

/-- A pixel step emits 0 to 5 bytes, and at most 1 for a pixel equal to `prev`: the spec's inference in R136. -/
def Obligations.PixelStepEmitsAtMostFiveBytes : Prop :=
  ∀ (s t : State) (cur : Pixel), EncHas s cur → runEvent .encTurn s = .next t →
    s.enc.outLen ≤ t.enc.outLen ∧ t.enc.outLen ≤ s.enc.outLen + 5 ∧
    (cur = s.enc.prev → t.enc.outLen ≤ s.enc.outLen + 1) ∧ (cur ≠ s.enc.prev → s.enc.outLen < t.enc.outLen)

/-- ENC raises no fault: whenever it has a step, the step answers a next state and leaves the decoder alone. Without its
pixel it has no step and changes nothing, and when DEC has none either the machine says so by name (R184, R51, R197(a);
the stop's name is the model's, log 6). -/
def Obligations.EncoderNeverFaults : Prop :=
  (∀ s : State, s.encReady = true → ∃ t, runEvent .encTurn s = .next t ∧ t.dec = s.dec) ∧
  (∀ s : State, s.enc.phase = .pixels → s.pixIn.read s.enc.inCount.toNat = none →
    runEvent .encTurn s = .next s ∧ (s.agenda = [] → s.dec.ready = false → step s = .fault .encoderStuck))

/-! The whole machine -/

/-- Every step keeps the invariant of a step boundary: the run counter is at most 61, the counts never pass the totals,
each phase means what R30 and R41 say, the fault registers are set exactly in FAULT, both outputs have no holes, `prev` of
DEC is the last pixel emitted, the inputs have no holes. -/
def Obligations.EveryStepKeepsTheInvariant : Prop :=
  ∀ s t : State, s.Inv → step s = .next t → t.Inv

/-- Inputs are constants of an invocation (R65): no step but the start command of its own block changes an input sequence;
and that command presents the sequence it brings, which is the model's reading of how a host presents one (log 19). -/
def Obligations.InputsAreConstantWithinAnInvocation : Prop :=
  ∀ s t : State, step s = .next t →
    (¬ StartsDecoder s → t.inp = s.inp) ∧ (¬ StartsEncoder s → t.pixIn = s.pixIn) ∧
    (∀ bs es, s.agenda = .decStart bs :: es → ∀ i, t.inp.read i = bs[i]?) ∧
    (∀ w h px es, s.agenda = .encStart w h px :: es → ∀ i, t.pixIn.read i = px[i]?)

/-- Outputs are append-only (R53): what was emitted is never rewritten and the counts never fall, but for a start. -/
def Obligations.OutputsAreAppendOnly : Prop :=
  ∀ s t : State, s.Inv → step s = .next t →
    (¬ StartsEncoder s → s.enc.outLen ≤ t.enc.outLen ∧ ∀ a, a < s.enc.outLen → t.out.read a = s.out.read a) ∧
    (¬ StartsDecoder s → s.dec.outCount.toNat ≤ t.dec.outCount.toNat ∧
      ∀ a, a < s.dec.outCount.toNat → t.pixOut.read a = s.pixOut.read a)

/-- The two blocks share nothing (R23): a step changes one of them at most, with its own sequences. -/
def Obligations.AStepChangesOneBlockAtMost : Prop :=
  ∀ s t : State, step s = .next t →
    (t.enc = s.enc ∧ t.out = s.out ∧ t.pixIn = s.pixIn) ∨ (t.dec = s.dec ∧ t.pixOut = s.pixOut ∧ t.inp = s.inp)

/-- Determinism of each block on its own state (R171): DEC's turn depends on DEC, IN and PIX_OUT alone, ENC's on ENC,
PIX_IN and OUT alone. -/
def Obligations.EachBlockDependsOnItsOwnStateAlone : Prop :=
  (∀ s s' t : State, s'.dec = s.dec → s'.inp = s.inp → s'.pixOut = s.pixOut → runEvent .decTurn s = .next t →
    ∃ t', runEvent .decTurn s' = .next t' ∧ t'.dec = t.dec ∧ t'.inp = t.inp ∧ t'.pixOut = t.pixOut) ∧
  (∀ s s' t : State, s'.enc = s.enc → s'.pixIn = s.pixIn → s'.out = s.out → runEvent .encTurn s = .next t →
    ∃ t', runEvent .encTurn s' = .next t' ∧ t'.enc = t.enc ∧ t'.pixIn = t.pixIn ∧ t'.out = t.out)

/-- The lockstep of R48 (the spec's inference), one step of ENC at a time: when both blocks agree on `prev` and the cache and
DEC reads at `pc` the bytes that ENC's step appended, DEC emits the pixels they code, moves past exactly those bytes, and the
two agree again. The three kinds of step that emit: a pixel coded with no run pending; a pixel equal to `prev` whose step
flushes the run (R123); a pixel that differs while a run is pending, whose step emits the run and then the pixel's own opcode
(R124), so that DEC takes two turns, the first past the one RUN byte. -/
def Obligations.LockstepIsKept : Prop :=
  (∀ (s t : State) (cur : Pixel), EncHas s cur → cur ≠ s.enc.prev → s.enc.run = 0#6 → Lockstep s → Owes s →
    runEvent .encTurn s = .next t → ReadsAppended s t →
    ∃ u, runEvent .decTurn t = .next u ∧ Lockstep u ∧ EmitsPixels t u cur 1 ∧
      u.dec.pc = s.dec.pc + (t.enc.outLen - s.enc.outLen)) ∧
  (∀ s t : State, EncHas s s.enc.prev → Lockstep s → Owes s →
    s.enc.run.toNat + 1 ≤ s.dec.nTotal.toNat - s.dec.outCount.toNat → runEvent .encTurn s = .next t →
    t.enc.run = 0#6 → ReadsAppended s t →
    ∃ u, runEvent .decTurn t = .next u ∧ Lockstep u ∧ EmitsPixels t u s.enc.prev (s.enc.run.toNat + 1) ∧
      u.dec.pc = s.dec.pc + (t.enc.outLen - s.enc.outLen)) ∧
  (∀ (s t : State) (cur : Pixel), EncHas s cur → cur ≠ s.enc.prev → s.enc.run ≠ 0#6 → Lockstep s → Owes s →
    s.enc.run.toNat + 1 ≤ s.dec.nTotal.toNat - s.dec.outCount.toNat → runEvent .encTurn s = .next t →
    ReadsAppended s t →
    ∃ u v, runEvent .decTurn t = .next u ∧ EmitsPixels t u s.enc.prev s.enc.run.toNat ∧ u.dec.pc = s.dec.pc + 1 ∧
      runEvent .decTurn u = .next v ∧ EmitsPixels u v cur 1 ∧ Lockstep v ∧
      v.dec.pc = s.dec.pc + (t.enc.outLen - s.enc.outLen))

/-- R137: for every image of `width * height` pixels, ENC started on it is DONE after its header step and one step a pixel,
and DEC started on the bytes it returned reaches DONE with the same pixels, width and height, having consumed them all. -/
def Obligations.DecodingAnEncodedImageReturnsIt : Prop :=
  ∀ (w h : Dim) (px : List Pixel), px.length = w.toNat * h.toNat →
    ∃ (t : State) (bytes : List Byte),
      Reaches (2 + px.length) { State.reset with agenda := [.encStart w h px] } t ∧
      t.enc.phase = .done ∧ t.encodeResult = some bytes ∧
      ∃ (k : Nat) (u : State),
        Reaches k { State.reset with agenda := [.decStart bytes] } u ∧
        u.dec.phase = .done ∧ u.decodeResult = some (px, w, h) ∧ u.dec.pc = t.enc.outLen
end

