-- ==== Sys2Proof/Laws/Memory.lean ====
section
/-! SUPPORT. The laws of a sequence: a read after a write, the canonical form, windows, and sequences without holes. -/

namespace Sys2Proof.Machine

variable {α : Type}

@[simp] theorem Memory.read_nil (a : Nat) : Memory.read ([] : Memory α) a = none := rfl

theorem Memory.read_cons (k : Nat) (v : α) (m : Memory α) (a : Nat) :
    Memory.read ((k, v) :: m) a = if k = a then some v else Memory.read m a := rfl

/-- A write changes what its own position reads as, and nothing else. -/
theorem Memory.read_write (m : Memory α) (a b : Nat) (v : α) :
    (m.write a v).read b = if b = a then some v else m.read b := by
  induction m with
  | nil => simp [Memory.write, Memory.read_cons, eq_comm]
  | cons c m ih =>
    obtain ⟨k, u⟩ := c
    simp only [Memory.write]
    split
    · simp [Memory.read_cons, eq_comm]
    · split
      · simp only [Memory.read_cons]; grind
      · simp only [Memory.read_cons, ih]; grind

@[simp] theorem Memory.read_write_same (m : Memory α) (a : Nat) (v : α) : (m.write a v).read a = some v := by
  simp [Memory.read_write]

theorem Memory.read_write_other (m : Memory α) {a b : Nat} (v : α) (h : b ≠ a) : (m.write a v).read b = m.read b := by
  simp [Memory.read_write, h]

/-- Every position of a write is the written one or an old one. -/
theorem Memory.mem_keys_write (m : Memory α) (a k : Nat) (v : α) :
    k ∈ (m.write a v).map Prod.fst ↔ k = a ∨ k ∈ m.map Prod.fst := by
  induction m with
  | nil => simp [Memory.write]
  | cons c m ih =>
    obtain ⟨j, u⟩ := c
    simp only [Memory.write]
    split
    · simp
    · split
      · next h1 h2 => subst h2; simp
      · simp only [List.map_cons, List.mem_cons, ih]; grind

/-- A write keeps the canonical form. -/
theorem Memory.wf_write (m : Memory α) (a : Nat) (v : α) (h : m.wf) : (m.write a v).wf := by
  unfold Memory.wf at h ⊢
  induction m with
  | nil => simp [Memory.write]
  | cons c m ih =>
    obtain ⟨k, u⟩ := c
    simp only [List.map_cons, List.pairwise_cons] at h
    obtain ⟨hk, hm⟩ := h
    simp only [Memory.write]
    split
    · next hlt =>
      simp only [List.map_cons, List.pairwise_cons, List.mem_cons, forall_eq_or_imp]
      exact ⟨⟨hlt, fun j hj => lt_trans hlt (hk j hj)⟩, hk, hm⟩
    · split
      · next h1 h2 => subst h2; simp only [List.map_cons, List.pairwise_cons]; exact ⟨hk, hm⟩
      · next h1 h2 =>
        simp only [List.map_cons, List.pairwise_cons]
        refine ⟨fun j hj => ?_, ih hm⟩
        rcases (Memory.mem_keys_write m a j v).1 hj with rfl | hj
        · omega
        · exact hk j hj

theorem Memory.wf_writeList (vs : List α) (m : Memory α) (a : Nat) (h : m.wf) : (m.writeList a vs).wf := by
  induction vs generalizing m a with
  | nil => exact h
  | cons v vs ih => exact ih _ _ (Memory.wf_write m a v h)

/-- What `writeList` reads as: the list inside its span, the old content outside. -/
theorem Memory.read_writeList (vs : List α) (m : Memory α) (a b : Nat) :
    (m.writeList a vs).read b = if a ≤ b ∧ b < a + vs.length then vs[b - a]? else m.read b := by
  induction vs generalizing m a with
  | nil => simp [Memory.writeList]
  | cons v vs ih =>
    simp only [Memory.writeList, ih, Memory.read_write, List.length_cons]
    by_cases hb : b = a
    · subst hb; simp
    · by_cases h : a + 1 ≤ b ∧ b < a + 1 + vs.length
      · have h' : a ≤ b ∧ b < a + (vs.length + 1) := by omega
        have : b - a = (b - (a + 1)) + 1 := by omega
        simp [h, h', this]
      · have h' : ¬ (a ≤ b ∧ b < a + (vs.length + 1)) := by omega
        rw [if_neg h, if_neg h', if_neg hb]

theorem Memory.keys_ofListFrom (vs : List α) (a : Nat) :
    (Memory.ofListFrom a vs).map Prod.fst = List.range' a vs.length := by
  induction vs generalizing a with
  | nil => rfl
  | cons v vs ih => simp [Memory.ofListFrom, ih, List.range'_succ]

@[simp] theorem Memory.length_ofListFrom (vs : List α) (a : Nat) : (Memory.ofListFrom a vs).length = vs.length := by
  have := congrArg List.length (Memory.keys_ofListFrom vs a)
  simpa using this

@[simp] theorem Memory.length_ofList (vs : List α) : (Memory.ofList vs).length = vs.length :=
  Memory.length_ofListFrom vs 0

/-- What a host presents has no holes. -/
theorem Memory.dense_ofList (vs : List α) : (Memory.ofList vs).dense := by
  simp [Memory.dense, Memory.ofList, Memory.keys_ofListFrom, List.range_eq_range']

theorem Memory.wf_of_keys_range' {m : Memory α} {a n : Nat} (h : m.map Prod.fst = List.range' a n) : m.wf := by
  rw [Memory.wf, h]; exact List.pairwise_lt_range'

/-- A sequence without holes is in canonical form. -/
theorem Memory.wf_of_dense {m : Memory α} (h : m.dense) : m.wf :=
  Memory.wf_of_keys_range' (a := 0) (by rw [h, List.range_eq_range'])

/-- Reading the sequence a list makes, from any first position. -/
theorem Memory.read_ofListFrom (vs : List α) (a b : Nat) :
    (Memory.ofListFrom a vs).read b = if a ≤ b then vs[b - a]? else none := by
  induction vs generalizing a with
  | nil => simp [Memory.ofListFrom]
  | cons v vs ih =>
    simp only [Memory.ofListFrom, Memory.read_cons, ih]
    by_cases hb : a = b
    · subst hb; simp
    · by_cases h : a + 1 ≤ b
      · have : b - a = (b - (a + 1)) + 1 := by omega
        have h' : a ≤ b := by omega
        simp [hb, h, h', this]
      · have h' : ¬ a ≤ b := by omega
        simp [hb, h, h']

/-- Element `i` of what a host presents is element `i` of its list. -/
@[simp] theorem Memory.read_ofList (vs : List α) (i : Nat) : (Memory.ofList vs).read i = vs[i]? := by
  simp [Memory.ofList, Memory.read_ofListFrom]

/-- A sequence is the one its elements make from its first position, when its positions have no holes. -/
theorem Memory.eq_ofListFrom (m : Memory α) (a : Nat) (h : m.map Prod.fst = List.range' a m.length) :
    m = Memory.ofListFrom a m.elements := by
  induction m generalizing a with
  | nil => rfl
  | cons c m ih =>
    obtain ⟨k, v⟩ := c
    simp only [List.map_cons, List.length_cons, List.range'_succ, List.cons.injEq] at h
    obtain ⟨rfl, h⟩ := h
    simp only [Memory.elements, List.map_cons, Memory.ofListFrom]
    rw [← Memory.elements, ← ih (k + 1) h]

/-- A sequence without holes is the one its elements make. -/
theorem Memory.eq_ofList {m : Memory α} (h : m.dense) : m = Memory.ofList m.elements :=
  Memory.eq_ofListFrom m 0 (by rw [h, List.range_eq_range'])

/-- In a sequence without holes exactly the positions below its length exist. -/
theorem Memory.read_isSome_of_dense {m : Memory α} (h : m.dense) (a : Nat) : (m.read a).isSome ↔ a < m.length := by
  rw [Memory.eq_ofList h]; simp

/-- Writing at the end of what a list makes appends. -/
theorem Memory.write_ofListFrom_end (vs : List α) (a : Nat) (v : α) :
    (Memory.ofListFrom a vs).write (a + vs.length) v = Memory.ofListFrom a (vs ++ [v]) := by
  induction vs generalizing a with
  | nil => simp [Memory.ofListFrom, Memory.write]
  | cons u vs ih =>
    have h := ih (a + 1)
    have e : a + 1 + vs.length = a + (vs.length + 1) := by omega
    rw [e] at h
    simp [Memory.ofListFrom, Memory.write, h]

/-- Appending to a sequence without holes. -/
theorem Memory.write_ofList_end (vs : List α) (v : α) :
    (Memory.ofList vs).write vs.length v = Memory.ofList (vs ++ [v]) := by
  simpa [Memory.ofList] using Memory.write_ofListFrom_end vs 0 v

/-- A window over what a list makes is a slice of the list. -/
theorem Memory.window_ofList (vs : List α) (a n : Nat) : (Memory.ofList vs).window a n = (vs.drop a).take n := by
  induction n generalizing a with
  | zero => simp [Memory.window]
  | succ n ih =>
    simp only [Memory.window, Memory.read_ofList, ih]
    by_cases h : a < vs.length
    · rw [List.getElem?_eq_getElem h, List.drop_eq_getElem_cons h, List.take_succ_cons]
    · simp [List.getElem?_eq_none (Nat.le_of_not_lt h), List.drop_eq_nil_of_le (Nat.le_of_not_lt h)]

/-- `MemRead` over a sequence without holes sees all `n` elements exactly when `a + n` does not pass its end (R55). -/
theorem Memory.window_complete {m : Memory α} (h : m.dense) (a n : Nat) (hn : 0 < n) :
    (m.window a n).length = n ↔ a + n ≤ m.length := by
  have e := Memory.window_ofList m.elements a n
  rw [← Memory.eq_ofList h] at e
  rw [e]
  simp [Memory.elements]
  omega

end Sys2Proof.Machine
end

