-- ==== Sys2Proof/Laws/Operands.lean ====
section
/-! SUPPORT. What the arithmetic of both blocks computes, as numbers. -/

namespace Sys2Proof.Machine

/-- The hash as a number (R27). -/
theorem hash_toNat (p : Pixel) : (hash p).toNat = (3 * p.r.toNat + 5 * p.g.toNat + 7 * p.b.toNat) % 64 := by
  simp [hash]

/-- One channel plus a delta, as an integer (R158). -/
theorem addChannel_toNat (c : Byte) (d : Int) : ((addChannel c d).toNat : Int) = (c.toNat + d) % 256 := by
  simp [addChannel, BitVec.toNat_ofInt]; omega

/-- The pixel total is the product, which 64 bits hold (R6). -/
theorem pixelTotal_toNat (w h : Dim) : (pixelTotal w h).toNat = w.toNat * h.toNat := by
  have hw := w.isLt
  have hh := h.isLt
  have : w.toNat * h.toNat < 2 ^ 64 := by
    calc w.toNat * h.toNat ≤ (2 ^ 32 - 1) * (2 ^ 32 - 1) := Nat.mul_le_mul (by omega) (by omega)
      _ < 2 ^ 64 := by norm_num
  simp only [pixelTotal, BitVec.toNat_mul, BitVec.toNat_setWidth]
  have ew : w.toNat % 2 ^ 64 = w.toNat := Nat.mod_eq_of_lt (by omega)
  have eh : h.toNat % 2 ^ 64 = h.toNat := Nat.mod_eq_of_lt (by omega)
  rw [ew, eh, Nat.mod_eq_of_lt this]

/-- A delta in range comes back from its biased field (R84). -/
theorem unbias_biased {n : Nat} {bias d : Int} (h0 : 0 ≤ d + bias) (h1 : d + bias < 2 ^ n) :
    unbias bias (biased n bias d) = d := by
  have : (d + bias) % (2 ^ n : Nat) = d + bias := Int.emod_eq_of_lt h0 (by exact_mod_cast h1)
  simp only [unbias, biased, BitVec.toNat_ofInt, this, Int.toNat_of_nonneg h0]
  omega

/-- Adding to a channel its difference from another gives the other, with no wrap needed (R138). -/
theorem addChannel_sub (q p : Byte) : addChannel q ((p.toNat : Int) - q.toNat) = p := by
  apply BitVec.eq_of_toNat_eq
  have h := addChannel_toNat q ((p.toNat : Int) - q.toNat)
  have := p.isLt
  omega

/-- The delta ENC takes leads from `prev` back to `cur`. -/
theorem reconstruct_pixelSub (prev cur : Pixel) : reconstruct prev (pixelSub cur prev) = cur := by
  simp [reconstruct, pixelSub, addChannel_sub]

@[simp] theorem within_iff (lo hi x : Int) : within lo hi x = true ↔ lo ≤ x ∧ x ≤ hi := by simp [within]

/-- What the opcode of a miss is: a DIFF whose deltas are the difference, a LUMA likewise, or the literal. -/
theorem missOpcode_cases (prev cur : Pixel) :
    (∃ fr fg fb, missOpcode prev cur = .diff fr fg fb ∧ diffDelta fr fg fb = pixelSub cur prev) ∨
    (∃ fdg frg fbg, missOpcode prev cur = .luma fdg frg fbg ∧ lumaDelta fdg frg fbg = pixelSub cur prev) ∨
    missOpcode prev cur = .rgb cur.r cur.g cur.b := by
  generalize hd : pixelSub cur prev = d
  simp only [missOpcode, hd, classify]
  split_ifs with h1 h2
  · simp only [Bool.and_eq_true, within_iff] at h1
    refine .inl ⟨_, _, _, rfl, ?_⟩
    simp only [diffDelta]
    rw [unbias_biased (by omega) (by omega), unbias_biased (by omega) (by omega), unbias_biased (by omega) (by omega)]
  · simp only [Bool.and_eq_true, within_iff] at h2
    refine .inr (.inl ⟨_, _, _, rfl, ?_⟩)
    simp only [lumaDelta]
    rw [unbias_biased (by omega) (by omega), unbias_biased (by omega) (by omega), unbias_biased (by omega) (by omega)]
    simp
  · exact .inr (.inr rfl)

/-- The opcode of a miss is well-formed and an opcode. -/
theorem missOpcode_wellFormed (prev cur : Pixel) :
    (missOpcode prev cur).wellFormed = true ∧ (missOpcode prev cur).isOpcode = true := by
  rcases missOpcode_cases prev cur with ⟨_, _, _, h, _⟩ | ⟨_, _, _, h, _⟩ | h <;> simp [h, Instr.wellFormed, Instr.isOpcode]

end Sys2Proof.Machine
end

