-- ==== Sys2Proof/Laws/State.lean ====
section
/-! SUPPORT. One lemma per field of State for each named update, so that no proof unfolds a record update. -/

namespace Sys2Proof.Machine

variable (s : State)

@[simp] theorem emitByte_enc (b : Byte) : (emitByte b s).enc = { s.enc with outLen := s.enc.outLen + 1 } := rfl
@[simp] theorem emitByte_pixIn (b : Byte) : (emitByte b s).pixIn = s.pixIn := rfl
@[simp] theorem emitByte_out (b : Byte) : (emitByte b s).out = s.out.write s.enc.outLen b := rfl
@[simp] theorem emitByte_dec (b : Byte) : (emitByte b s).dec = s.dec := rfl
@[simp] theorem emitByte_inp (b : Byte) : (emitByte b s).inp = s.inp := rfl
@[simp] theorem emitByte_pixOut (b : Byte) : (emitByte b s).pixOut = s.pixOut := rfl
@[simp] theorem emitByte_agenda (b : Byte) : (emitByte b s).agenda = s.agenda := rfl

@[simp] theorem encCachePixel_enc (p : Pixel) :
    (encCachePixel p s).enc = { s.enc with cache := s.enc.cache.write (hash p) p } := rfl
@[simp] theorem encCachePixel_pixIn (p : Pixel) : (encCachePixel p s).pixIn = s.pixIn := rfl
@[simp] theorem encCachePixel_out (p : Pixel) : (encCachePixel p s).out = s.out := rfl
@[simp] theorem encCachePixel_dec (p : Pixel) : (encCachePixel p s).dec = s.dec := rfl
@[simp] theorem encCachePixel_inp (p : Pixel) : (encCachePixel p s).inp = s.inp := rfl
@[simp] theorem encCachePixel_pixOut (p : Pixel) : (encCachePixel p s).pixOut = s.pixOut := rfl
@[simp] theorem encCachePixel_agenda (p : Pixel) : (encCachePixel p s).agenda = s.agenda := rfl

@[simp] theorem emitPixel_enc (p : Pixel) : (emitPixel p s).enc = s.enc := rfl
@[simp] theorem emitPixel_pixIn (p : Pixel) : (emitPixel p s).pixIn = s.pixIn := rfl
@[simp] theorem emitPixel_out (p : Pixel) : (emitPixel p s).out = s.out := rfl
@[simp] theorem emitPixel_dec (p : Pixel) :
    (emitPixel p s).dec = { s.dec with outCount := s.dec.outCount + 1#64 } := rfl
@[simp] theorem emitPixel_inp (p : Pixel) : (emitPixel p s).inp = s.inp := rfl
@[simp] theorem emitPixel_pixOut (p : Pixel) : (emitPixel p s).pixOut = s.pixOut.write s.dec.outCount.toNat p := rfl
@[simp] theorem emitPixel_agenda (p : Pixel) : (emitPixel p s).agenda = s.agenda := rfl

@[simp] theorem decSetPrev_enc (p : Pixel) : (decSetPrev p s).enc = s.enc := rfl
@[simp] theorem decSetPrev_pixIn (p : Pixel) : (decSetPrev p s).pixIn = s.pixIn := rfl
@[simp] theorem decSetPrev_out (p : Pixel) : (decSetPrev p s).out = s.out := rfl
@[simp] theorem decSetPrev_dec (p : Pixel) : (decSetPrev p s).dec = { s.dec with prev := p } := rfl
@[simp] theorem decSetPrev_inp (p : Pixel) : (decSetPrev p s).inp = s.inp := rfl
@[simp] theorem decSetPrev_pixOut (p : Pixel) : (decSetPrev p s).pixOut = s.pixOut := rfl
@[simp] theorem decSetPrev_agenda (p : Pixel) : (decSetPrev p s).agenda = s.agenda := rfl

@[simp] theorem decCachePixel_enc (p : Pixel) : (decCachePixel p s).enc = s.enc := rfl
@[simp] theorem decCachePixel_pixIn (p : Pixel) : (decCachePixel p s).pixIn = s.pixIn := rfl
@[simp] theorem decCachePixel_out (p : Pixel) : (decCachePixel p s).out = s.out := rfl
@[simp] theorem decCachePixel_dec (p : Pixel) :
    (decCachePixel p s).dec = { s.dec with cache := s.dec.cache.write (hash p) p } := rfl
@[simp] theorem decCachePixel_inp (p : Pixel) : (decCachePixel p s).inp = s.inp := rfl
@[simp] theorem decCachePixel_pixOut (p : Pixel) : (decCachePixel p s).pixOut = s.pixOut := rfl
@[simp] theorem decCachePixel_agenda (p : Pixel) : (decCachePixel p s).agenda = s.agenda := rfl

@[simp] theorem showPixel_enc (p : Pixel) : (showPixel p s).enc = s.enc := rfl
@[simp] theorem showPixel_pixIn (p : Pixel) : (showPixel p s).pixIn = s.pixIn := rfl
@[simp] theorem showPixel_out (p : Pixel) : (showPixel p s).out = s.out := rfl
@[simp] theorem showPixel_dec (p : Pixel) : (showPixel p s).dec = { s.dec with outCount := s.dec.outCount + 1#64, prev := p } := rfl
@[simp] theorem showPixel_inp (p : Pixel) : (showPixel p s).inp = s.inp := rfl
@[simp] theorem showPixel_pixOut (p : Pixel) : (showPixel p s).pixOut = s.pixOut.write s.dec.outCount.toNat p := rfl
@[simp] theorem showPixel_agenda (p : Pixel) : (showPixel p s).agenda = s.agenda := rfl

@[simp] theorem deliverPixel_enc (p : Pixel) : (deliverPixel p s).enc = s.enc := rfl
@[simp] theorem deliverPixel_pixIn (p : Pixel) : (deliverPixel p s).pixIn = s.pixIn := rfl
@[simp] theorem deliverPixel_out (p : Pixel) : (deliverPixel p s).out = s.out := rfl
@[simp] theorem deliverPixel_dec (p : Pixel) :
    (deliverPixel p s).dec = { s.dec with
      outCount := s.dec.outCount + 1#64, prev := p, cache := s.dec.cache.write (hash p) p } := rfl
@[simp] theorem deliverPixel_inp (p : Pixel) : (deliverPixel p s).inp = s.inp := rfl
@[simp] theorem deliverPixel_pixOut (p : Pixel) :
    (deliverPixel p s).pixOut = s.pixOut.write s.dec.outCount.toNat p := rfl
@[simp] theorem deliverPixel_agenda (p : Pixel) : (deliverPixel p s).agenda = s.agenda := rfl

@[simp] theorem finishOpcode_enc (len : Nat) : (finishOpcode len s).enc = s.enc := rfl
@[simp] theorem finishOpcode_pixIn (len : Nat) : (finishOpcode len s).pixIn = s.pixIn := rfl
@[simp] theorem finishOpcode_out (len : Nat) : (finishOpcode len s).out = s.out := rfl
@[simp] theorem finishOpcode_dec (len : Nat) :
    (finishOpcode len s).dec = { s.dec with
      pc := s.dec.pc + len, phase := if s.dec.outCount = s.dec.nTotal then .done else s.dec.phase } := rfl
@[simp] theorem finishOpcode_inp (len : Nat) : (finishOpcode len s).inp = s.inp := rfl
@[simp] theorem finishOpcode_pixOut (len : Nat) : (finishOpcode len s).pixOut = s.pixOut := rfl
@[simp] theorem finishOpcode_agenda (len : Nat) : (finishOpcode len s).agenda = s.agenda := rfl

@[simp] theorem takeFault_enc (c : Cause) : (takeFault c s).enc = s.enc := rfl
@[simp] theorem takeFault_pixIn (c : Cause) : (takeFault c s).pixIn = s.pixIn := rfl
@[simp] theorem takeFault_out (c : Cause) : (takeFault c s).out = s.out := rfl
@[simp] theorem takeFault_dec (c : Cause) :
    (takeFault c s).dec = { s.dec with
      cause := c, faultPc := s.dec.pc, faultByte := if c = .unsupportedOpcode then 0xff#8 else 0#8, phase := .fault } := rfl
@[simp] theorem takeFault_inp (c : Cause) : (takeFault c s).inp = s.inp := rfl
@[simp] theorem takeFault_pixOut (c : Cause) : (takeFault c s).pixOut = s.pixOut := rfl
@[simp] theorem takeFault_agenda (c : Cause) : (takeFault c s).agenda = s.agenda := rfl

@[simp] theorem encFinish_enc (cur : Pixel) :
    (encFinish cur s).enc = { s.enc with
      prev := cur, inCount := s.enc.inCount + 1#64,
      phase := if s.enc.inCount + 1#64 = s.enc.nTotal then .done else s.enc.phase } := rfl
@[simp] theorem encFinish_pixIn (cur : Pixel) : (encFinish cur s).pixIn = s.pixIn := rfl
@[simp] theorem encFinish_out (cur : Pixel) : (encFinish cur s).out = s.out := rfl
@[simp] theorem encFinish_dec (cur : Pixel) : (encFinish cur s).dec = s.dec := rfl
@[simp] theorem encFinish_inp (cur : Pixel) : (encFinish cur s).inp = s.inp := rfl
@[simp] theorem encFinish_pixOut (cur : Pixel) : (encFinish cur s).pixOut = s.pixOut := rfl
@[simp] theorem encFinish_agenda (cur : Pixel) : (encFinish cur s).agenda = s.agenda := rfl

end Sys2Proof.Machine
end

