-- ==== Sys2Proof/Laws/Ops.lean ====
section
/-! SUPPORT. One lemma per shared operation, which says everything it can do. -/

namespace Sys2Proof.Machine

/-! The cache -/

/-- A cache write changes its own slot and no other. -/
theorem Cache.read_write (m : Cache) (k j : BitVec 6) (p : Pixel) :
    (m.write k p).read j = if j = k then p else m.read j := by
  have h : (j = k) ↔ k.toNat = j.toNat := by rw [eq_comm, ← BitVec.toNat_inj]
  simp only [Cache.read, Cache.write, h]
  show (m.set k.toNat p k.isLt)[j.toNat]'(j.isLt) = if k.toNat = j.toNat then p else m[j.toNat]'(j.isLt)
  exact Vector.getElem_set ..

@[simp] theorem Cache.read_zero (k : BitVec 6) : Cache.zero.read k = Pixel.black := by
  show (Vector.replicate 64 Pixel.black)[k.toNat]'(k.isLt) = Pixel.black
  simp

/-! Emission by ENC -/

/-- Emitting bytes changes OUT and `out_len` only. -/
theorem emitBytes_eq (bs : List Byte) (s : State) :
    emitBytes bs s = { s with
      out := s.out.writeList s.enc.outLen bs
      enc := { s.enc with outLen := s.enc.outLen + bs.length } } := by
  induction bs generalizing s with
  | nil => rfl
  | cons b bs ih => simp [emitBytes, ih, emitByte, Memory.writeList, Nat.add_assoc, Nat.add_comm 1]

theorem emitInstr_eq (i : Instr) (s : State) :
    emitInstr i s = { s with
      out := s.out.writeList s.enc.outLen (encode i)
      enc := { s.enc with outLen := s.enc.outLen + (encode i).length } } := emitBytes_eq _ s

/-- A flush appends one RUN and clears the counter; nothing else. -/
theorem flushRun_eq (s : State) :
    flushRun s = { s with
      out := s.out.write s.enc.outLen (0b11#2 ++ (s.enc.run - 1#6))
      enc := { s.enc with outLen := s.enc.outLen + 1, run := 0#6 } } := by
  simp [flushRun, emitInstr_eq, encode, Memory.writeList]

/-! Emission by DEC -/

/-- Emitting `n` pixels changes PIX_OUT and `out_count` only. -/
theorem emitPixels_fields (n : Nat) (p : Pixel) (s : State) :
    (emitPixels n p s).dec = { s.dec with outCount := s.dec.outCount + BitVec.ofNat 64 n } ∧
    (emitPixels n p s).enc = s.enc ∧ (emitPixels n p s).pixIn = s.pixIn ∧ (emitPixels n p s).out = s.out ∧
    (emitPixels n p s).inp = s.inp ∧ (emitPixels n p s).agenda = s.agenda := by
  induction n generalizing s with
  | zero => simp [emitPixels]
  | succ n ih =>
    obtain ⟨hd, h⟩ := ih (emitPixel p s)
    refine ⟨?_, by simpa [emitPixels] using h⟩
    simp only [emitPixels, hd, emitPixel_dec]
    congr 1
    rw [BitVec.add_assoc, Nat.add_comm n 1, BitVec.ofNat_add]

/-- The pixels that `emitPixels` appends, when the counter does not wrap. -/
theorem emitPixels_read (n : Nat) (p : Pixel) (s : State) (a : Nat) (h : s.dec.outCount.toNat + n < 2 ^ 64) :
    (emitPixels n p s).pixOut.read a =
      if s.dec.outCount.toNat ≤ a ∧ a < s.dec.outCount.toNat + n then some p else s.pixOut.read a := by
  induction n generalizing s with
  | zero => simp [emitPixels]
  | succ n ih =>
    have hc : (s.dec.outCount + 1#64).toNat = s.dec.outCount.toNat + 1 := by
      rw [BitVec.toNat_add]; simp; omega
    simp only [emitPixels]
    rw [ih _ (by simp only [emitPixel_dec, hc]; omega)]
    simp only [emitPixel_dec, emitPixel_pixOut, hc, Memory.read_write]
    split_ifs <;> first | rfl | omega

/-- Every sequence in canonical form stays so while pixels are emitted. -/
theorem emitPixels_wf (n : Nat) (p : Pixel) (s : State) (h : s.pixOut.wf) : (emitPixels n p s).pixOut.wf := by
  induction n generalizing s with
  | zero => exact h
  | succ n ih => exact ih _ (Memory.wf_write _ _ _ h)

/-! The frame of an opcode step -/

/-- An opcode step answers a next state in OPCODES only, and then it is its body followed by `finishOpcode`. -/
theorem opcodeStep_eq_next {len : Nat} {body : State → State} {s t : State} (h : opcodeStep len body s = .next t) :
    s.dec.phase = .opcodes ∧ t = finishOpcode len (body s) := by
  unfold opcodeStep at h
  split at h
  · next hp => cases h; exact ⟨hp, rfl⟩
  · cases h

theorem opcodeStep_next {len : Nat} {body : State → State} {s : State} (h : s.dec.phase = .opcodes) :
    opcodeStep len body s = .next (finishOpcode len (body s)) := by simp [opcodeStep, h]

end Sys2Proof.Machine
end

