-- ==== Sys2Proof/Laws/Step.lean ====
section
/-! SUPPORT. Inversion: everything a step, a decoder step, an encoder step and an instruction can do when they answer a
next state. -/

namespace Sys2Proof.Machine

/-! The step -/

/-- `s` with its first event taken off: what the event runs on. -/
def State.taken (s : State) : State := { s with agenda := s.agenda.tail }

@[simp] theorem State.taken_enc (s : State) : s.taken.enc = s.enc := rfl
@[simp] theorem State.taken_pixIn (s : State) : s.taken.pixIn = s.pixIn := rfl
@[simp] theorem State.taken_out (s : State) : s.taken.out = s.out := rfl
@[simp] theorem State.taken_dec (s : State) : s.taken.dec = s.dec := rfl
@[simp] theorem State.taken_inp (s : State) : s.taken.inp = s.inp := rfl
@[simp] theorem State.taken_pixOut (s : State) : s.taken.pixOut = s.pixOut := rfl
@[simp] theorem State.taken_agenda (s : State) : s.taken.agenda = s.agenda.tail := rfl

theorem State.taken_of_nil {s : State} (h : s.agenda = []) : s.taken = s := by
  cases s; simp_all [State.taken]

/-- A step is a start command that was accepted, a step of ENC, a step of DEC, or a turn that passed. -/
theorem step_cases {s t : State} (h : step s = .next t) :
    (∃ w ht px, s.agenda.head? = some (.encStart w ht px) ∧ s.enc.acceptsStart = true ∧
      t = { s.taken with enc := Enc.started w ht, pixIn := Memory.ofList px, out := [] }) ∨
    (∃ bytes, s.agenda.head? = some (.decStart bytes) ∧ s.dec.acceptsStart = true ∧
      t = { s.taken with dec := Dec.started, inp := Memory.ofList bytes, pixOut := [] }) ∨
    (¬ StartsDecoder s ∧ ¬ StartsEncoder s ∧
      (encStep s.taken = .next t ∨ decStep s.taken = .next t ∨ t = s.taken)) := by
  unfold step at h
  cases ha : s.agenda with
  | nil =>
    rw [ha] at h
    refine .inr (.inr ⟨by simp [StartsDecoder, ha], by simp [StartsEncoder, ha], ?_⟩)
    rw [State.taken_of_nil ha]
    simp only [restStep] at h
    split_ifs at h
    · exact .inr (.inl h)
    · exact .inl h
  | cons e rest =>
    rw [ha] at h
    have ht : ({ s with agenda := rest } : State) = s.taken := by simp [State.taken, ha]
    simp only [ht] at h
    cases e with
    | encStart w ht px =>
      simp only [runEvent, encStart] at h
      split at h
      · next hacc => cases h; exact .inl ⟨w, ht, px, by simp, hacc, rfl⟩
      · cases h
    | decStart bytes =>
      simp only [runEvent, decStart] at h
      split at h
      · next hacc => cases h; exact .inr (.inl ⟨bytes, by simp, hacc, rfl⟩)
      · cases h
    | encTurn =>
      refine .inr (.inr ⟨by simp [StartsDecoder, ha], by simp [StartsEncoder, ha], ?_⟩)
      simp only [runEvent] at h
      split at h
      · exact .inl h
      · cases h; exact .inr (.inr rfl)
    | decTurn =>
      refine .inr (.inr ⟨by simp [StartsDecoder, ha], by simp [StartsEncoder, ha], ?_⟩)
      simp only [runEvent] at h
      split at h
      · exact .inr (.inl h)
      · cases h; exact .inr (.inr rfl)

/-! The decoder -/

/-- A step of DEC is the magic step, fault entry, or an instruction it fetched. -/
theorem decStep_cases {s t : State} (h : decStep s = .next t) :
    (s.dec.phase = .header ∧ s.dec.pc = 0 ∧ t = magicStep s) ∨
    (s.dec.phase = .header ∧ s.dec.pc = 4 ∧
      ((∃ e, fetchDims s = .error e ∧ t = takeFault (faultOf e) s) ∨
        ∃ i rest, fetchDims s = .ok (i, rest) ∧ exec i s = .next t)) ∨
    (s.dec.phase = .opcodes ∧
      ((∃ e, fetchOpcode s = .error e ∧ t = takeFault (faultOf e) s) ∨
        ∃ i rest, fetchOpcode s = .ok (i, rest) ∧ exec i s = .next t)) := by
  unfold decStep at h
  split at h
  · next hp =>
    split at h
    · next h0 => cases h; exact .inl ⟨hp, h0, rfl⟩
    · split at h
      · next h4 =>
        refine .inr (.inl ⟨hp, h4, ?_⟩)
        unfold execFetched at h
        split at h
        · next e he => cases h; exact .inl ⟨e, he, rfl⟩
        · next i rest he => exact .inr ⟨i, rest, he, h⟩
      · cases h
  · next hp =>
    refine .inr (.inr ⟨hp, ?_⟩)
    unfold execFetched at h
    split at h
    · next e he => cases h; exact .inl ⟨e, he, rfl⟩
    · next i rest he => exact .inr ⟨i, rest, he, h⟩
  all_goals cases h

/-- Everything the magic step can do (R102). -/
theorem magicStep_cases (s : State) :
    (∃ rest, decodeMagic (s.inp.window 0 4) = .ok rest ∧ magicStep s = { s with dec := { s.dec with pc := 4 } }) ∨
    ∃ e, decodeMagic (s.inp.window 0 4) = .error e ∧ magicStep s = takeFault (faultOf e) s := by
  cases h : decodeMagic (s.inp.window 0 4) with
  | error e => exact .inr ⟨e, rfl, by simp [magicStep, h]⟩
  | ok rest => exact .inl ⟨rest, rfl, by simp [magicStep, h]⟩

/-- The opcodes that form a pixel, deliver it and cache it: what each delivers, and its length. -/
def Instr.delivered (q : Pixel) : Instr → Option (Pixel × Nat)
  | .rgb r g b => some (⟨r, g, b⟩, 4)
  | .rgba => none
  | .index _ => none
  | .diff fr fg fb => some (reconstruct q (diffDelta fr fg fb), 1)
  | .luma fdg frg fbg => some (reconstruct q (lumaDelta fdg frg fbg), 2)
  | .run _ => none
  | .header _ _ _ _ => none

/-- Everything an instruction can do: HEADER in HEADER, or an opcode in OPCODES. -/
theorem exec_cases {i : Instr} {s t : State} (h : exec i s = .next t) :
    (∃ w ht ch cs, i = .header w ht ch cs ∧ s.dec.phase = .header ∧ s.dec.pc = 4 ∧
      t = { s with dec := { s.dec with
        width := w, height := ht, channels := ch, colorspace := cs, nTotal := pixelTotal w ht, pc := 14,
        phase := if pixelTotal w ht = 0#64 then .done else .opcodes } }) ∨
    (s.dec.phase = .opcodes ∧
      ((i = .rgba ∧ t = takeFault .unsupportedOpcode s) ∨
        (∃ p len, Instr.delivered s.dec.prev i = some (p, len) ∧ t = finishOpcode len (deliverPixel p s)) ∨
        (∃ key, i = .index key ∧
          t = finishOpcode 1 (showPixel (s.dec.cache.read key) s)) ∨
        (∃ len1, i = .run len1 ∧
          t = finishOpcode 1 (emitPixels (min (runLength len1) s.dec.owed) s.dec.prev s)))) := by
  cases i with
  | rgb r g b =>
    obtain ⟨hp, rfl⟩ := opcodeStep_eq_next h
    exact .inr ⟨hp, .inr (.inl ⟨_, _, rfl, rfl⟩)⟩
  | rgba =>
    simp only [exec, execRgba] at h
    split at h
    · next hp => cases h; exact .inr ⟨hp, .inl ⟨rfl, rfl⟩⟩
    · cases h
  | index key =>
    obtain ⟨hp, rfl⟩ := opcodeStep_eq_next h
    exact .inr ⟨hp, .inr (.inr (.inl ⟨key, rfl, rfl⟩))⟩
  | diff fr fg fb =>
    obtain ⟨hp, rfl⟩ := opcodeStep_eq_next h
    exact .inr ⟨hp, .inr (.inl ⟨_, _, rfl, rfl⟩)⟩
  | luma fdg frg fbg =>
    obtain ⟨hp, rfl⟩ := opcodeStep_eq_next h
    exact .inr ⟨hp, .inr (.inl ⟨_, _, rfl, rfl⟩)⟩
  | run len1 =>
    obtain ⟨hp, rfl⟩ := opcodeStep_eq_next h
    exact .inr ⟨hp, .inr (.inr (.inr ⟨len1, rfl, rfl⟩))⟩
  | header w ht ch cs =>
    simp only [exec, execHeader] at h
    split at h
    · next hp => cases h; exact .inl ⟨w, ht, ch, cs, rfl, hp.1, hp.2, rfl⟩
    · cases h

/-! The encoder -/

/-- A step of ENC is the header step or the pixel step of the pixel at `in_count`. -/
theorem encStep_cases {s t : State} (h : encStep s = .next t) :
    (s.enc.phase = .header ∧ t = encHeaderStep s) ∨
    (s.enc.phase = .pixels ∧ ∃ cur, s.pixIn.read s.enc.inCount.toNat = some cur ∧ t = encPixelStep cur s) := by
  unfold encStep at h
  split at h
  · next hp => cases h; exact .inl ⟨hp, rfl⟩
  · next hp =>
    split at h
    · next cur hc => cases h; exact .inr ⟨hp, cur, hc, rfl⟩
    · cases h
  all_goals cases h

/-- The pixel step on a pixel equal to `prev` (R122, R123). -/
theorem encPixelStep_run (s : State) :
    encPixelStep s.enc.prev s =
      if s.enc.run + 1#6 = 62#6 ∨ s.enc.atLast = true then
        encFinish s.enc.prev { s with
          out := s.out.write s.enc.outLen (0b11#2 ++ s.enc.run)
          enc := { s.enc with outLen := s.enc.outLen + 1, run := 0#6 } }
      else encFinish s.enc.prev { s with enc := { s.enc with run := s.enc.run + 1#6 } } := by
  simp only [encPixelStep, if_true, encRunBranch, flushRun_eq, BitVec.add_sub_cancel]
  split_ifs <;> rfl

/-- The bytes of a pending run (R124). -/
def flushed (e : Enc) : List Byte := if e.runPending then [0b11#2 ++ (e.run - 1#6)] else []

/-- The state after the flush of a pending run, if there is one. -/
theorem flush_pending_eq (s : State) :
    (if s.enc.runPending then flushRun s else s) = { s with
      out := s.out.writeList s.enc.outLen (flushed s.enc)
      enc := { s.enc with outLen := s.enc.outLen + (flushed s.enc).length, run := 0#6 } } := by
  unfold flushed
  split
  · simp [flushRun_eq, Memory.writeList]
  · next h =>
    have h0 : s.enc.run = 0#6 := by
      apply BitVec.eq_of_toNat_eq
      simp only [Enc.runPending, decide_eq_true_eq] at h
      simp; omega
    cases s with
    | mk enc _ _ _ _ _ _ => cases enc; simp_all [Memory.writeList]

theorem Memory.writeList_append {α : Type} (xs ys : List α) (m : Memory α) (a : Nat) :
    (m.writeList a xs).writeList (a + xs.length) ys = m.writeList a (xs ++ ys) := by
  induction xs generalizing m a with
  | nil => simp [Memory.writeList]
  | cons x xs ih => simp [Memory.writeList, ← ih, Nat.add_assoc, Nat.add_comm 1]

/-- The opcode of a pixel that differs from `prev`, and the cache after it (R126, R127). -/
def chosen (e : Enc) (cur : Pixel) : Instr × Cache :=
  if e.cache.read (hash cur) = cur then (.index (hash cur), e.cache)
  else (missOpcode e.prev cur, e.cache.write (hash cur) cur)

/-- The pixel step on a pixel that differs from `prev` (R124, R126, R127). -/
theorem encPixelStep_other {s : State} {cur : Pixel} (h : cur ≠ s.enc.prev) :
    encPixelStep cur s = encFinish cur { s with
      out := s.out.writeList s.enc.outLen (flushed s.enc ++ encode (chosen s.enc cur).1)
      enc := { s.enc with
        cache := (chosen s.enc cur).2
        run := 0#6
        outLen := s.enc.outLen + (flushed s.enc ++ encode (chosen s.enc cur).1).length } } := by
  simp only [encPixelStep, if_neg h, encOtherBranch, flush_pending_eq, emitInstr_eq, chosen]
  split_ifs <;> simp [encCachePixel, Memory.writeList_append, Nat.add_assoc]

end Sys2Proof.Machine
end

