-- ==== Sys2Proof/Laws/Boundary.lean ====
section
/-! SUPPORT. The lemmas that claims about step boundaries share: sequences that cover a range, big-endian fields, what
the shared operations mean in the terms of Safety, and which half of the machine a block's step leaves alone. -/

namespace Sys2Proof.Machine

/-! Sequences -/

variable {α : Type}

/-- Appending at the end keeps a sequence free of holes. -/
theorem Memory.covers_write {m : Memory α} {n : Nat} (h : m.covers n) (v : α) : (m.write n v).covers (n + 1) := by
  have hl : m.length = n := by simpa using congrArg List.length h
  have hd : m.dense := by unfold Memory.dense; rw [hl]; exact h
  have hl' : m.elements.length = n := by simp [Memory.elements, hl]
  have he := Memory.write_ofList_end m.elements v
  rw [← Memory.eq_ofList hd, hl'] at he
  have hd' := Memory.dense_ofList (m.elements ++ [v])
  unfold Memory.dense at hd'
  unfold Memory.covers
  rw [he, hd']
  simp [hl']

theorem Memory.covers_writeList {m : Memory α} {n : Nat} (vs : List α) (h : m.covers n) :
    (m.writeList n vs).covers (n + vs.length) := by
  induction vs generalizing m n with
  | nil => exact h
  | cons v vs ih => simpa [Memory.writeList, Nat.add_assoc, Nat.add_comm 1] using ih (covers_write h v)

/-- A sequence that covers a range is in canonical form. -/
theorem Memory.wf_of_covers {m : Memory α} {n : Nat} (h : m.covers n) : m.wf := by
  unfold Memory.covers at h
  exact Memory.wf_of_keys_range' (a := 0) (n := n) (by rw [h, List.range_eq_range'])

/-- The four sequences of the state after power-on are in canonical form. -/
theorem State.reset_wf :
    State.reset.pixIn.wf ∧ State.reset.out.wf ∧ State.reset.inp.wf ∧ State.reset.pixOut.wf := by decide

/-- Past the end of a sequence without holes there is no element. -/
theorem Memory.read_eq_none {m : Memory α} (h : m.dense) {a : Nat} (ha : m.length ≤ a) : m.read a = none := by
  have := Memory.read_isSome_of_dense h a
  cases hr : m.read a
  · rfl
  · simp_all; omega

/-- A sequence without holes reads as its list of elements. -/
theorem Memory.read_eq_elements {m : Memory α} (h : m.dense) (i : Nat) : m.read i = m.elements[i]? := by
  conv_lhs => rw [Memory.eq_ofList h]
  exact Memory.read_ofList _ _

/-- A window holds the elements it is known to begin with. -/
theorem Memory.window_prefix (m : Memory α) (vs : List α) (a n : Nat) (hn : vs.length ≤ n)
    (h : ∀ k, k < vs.length → m.read (a + k) = vs[k]?) : ∃ more, m.window a n = vs ++ more := by
  induction vs generalizing a n with
  | nil => exact ⟨_, rfl⟩
  | cons v vs ih =>
    obtain ⟨n, rfl⟩ : ∃ k, n = k + 1 := ⟨n - 1, by simp at hn; omega⟩
    have h0 : m.read a = some v := by simpa using h 0 (by simp)
    obtain ⟨more, hm⟩ := ih (a + 1) n (by simpa using hn) fun k hk => by
      simpa [Nat.add_assoc, Nat.add_comm 1] using h (k + 1) (by simpa using hk)
    exact ⟨more, by simp [Memory.window, h0, hm]⟩

/-! Big-endian fields (R56) -/

/-- Four bytes in order give a 32-bit field back. -/
theorem append_extract_bytes (v : BitVec 32) :
    v.extractLsb' 24 8 ++ v.extractLsb' 16 8 ++ v.extractLsb' 8 8 ++ v.extractLsb' 0 8 = v := by
  apply BitVec.eq_of_toNat_eq
  have := v.isLt
  simp only [BitVec.toNat_append, BitVec.extractLsb'_toNat]
  rw [← Nat.shiftLeft_add_eq_or_of_lt (by omega), ← Nat.shiftLeft_add_eq_or_of_lt (by omega),
    ← Nat.shiftLeft_add_eq_or_of_lt (by omega)]
  simp only [Nat.shiftLeft_eq, Nat.shiftRight_eq_div_pow]
  omega

/-- The value of four bytes in order. -/
theorem toNat_append_bytes (a b c d : Byte) : (a ++ b ++ c ++ d : BitVec 32).toNat =
    a.toNat * 2 ^ 24 + b.toNat * 2 ^ 16 + c.toNat * 2 ^ 8 + d.toNat := by
  have := a.isLt; have := b.isLt; have := c.isLt; have := d.isLt
  simp only [BitVec.toNat_append]
  rw [← Nat.shiftLeft_add_eq_or_of_lt (by omega), ← Nat.shiftLeft_add_eq_or_of_lt (by omega),
    ← Nat.shiftLeft_add_eq_or_of_lt (by omega)]
  simp only [Nat.shiftLeft_eq]
  omega

/-- A 32-bit field made of four bytes is written as those bytes. -/
theorem bytes32_append (a b c d : Byte) : bytes32 (a ++ b ++ c ++ d) = [a, b, c, d] := by
  have h := toNat_append_bytes a b c d
  have := a.isLt; have := b.isLt; have := c.isLt; have := d.isLt
  simp only [bytes32, List.cons.injEq, and_true]
  refine ⟨?_, ?_, ?_, ?_⟩ <;> apply BitVec.eq_of_toNat_eq <;> rw [BitVec.extractLsb'_toNat, h] <;>
    simp only [Nat.shiftRight_eq_div_pow] <;> omega

/-- A RUN byte as a number (R76). -/
theorem run_byte_eq (n : BitVec 6) : 0b11#2 ++ n = BitVec.ofNat 8 (0xc0 + n.toNat) := by revert n; decide

/-! Why bytes are no instruction -/

theorem decodeDims_error {bs : List Byte} {e : DecodeError} (h : decodeDims bs = .error e) : e = .endOfStream := by
  have t32 : ∀ {bs e}, take32 bs = .error e → e = .endOfStream := by
    intro bs e h; unfold take32 at h; split at h <;> cases h; rfl
  have t8 : ∀ {bs e}, take8 bs = .error e → e = .endOfStream := by
    intro bs e h; unfold take8 at h; split at h <;> cases h; rfl
  unfold decodeDims at h
  split at h
  · next h' => cases h; exact t32 h'
  · split at h
    · next h' => cases h; exact t32 h'
    · split at h
      · next h' => cases h; exact t8 h'
      · split at h
        · next h' => cases h; exact t8 h'
        · cases h

theorem decodeOpcode_error {bs : List Byte} {e : DecodeError} (h : decodeOpcode bs = .error e) : e = .endOfStream := by
  unfold decodeOpcode decodeFrom at h
  repeat' (split at h)
  all_goals cases h
  all_goals rfl

/-! The shared operations, in the terms of Safety -/

/-- A cache write at the hash of a pixel (R127, R159). -/
theorem cacheTakes_write (c : Cache) (p : Pixel) : CacheTakes c (c.write (hash p) p) p := by
  intro k
  rw [Cache.read_write]
  congr 1
  rw [← BitVec.toNat_inj, hash_toNat]

/-- Fault entry (R189). -/
theorem faultEntered_takeFault (s : State) (c : Cause) : FaultEntered s (takeFault c s) c := by simp [FaultEntered]

/-- While a pixel is owed, counting one does not wrap. -/
theorem outCount_succ {s : State} (h : Owes s) : (s.dec.outCount + 1#64).toNat = s.dec.outCount.toNat + 1 := by
  have := h.2
  have := s.dec.nTotal.isLt
  rw [BitVec.toNat_add]
  simp
  omega

/-- One pixel written at `out_count` and counted. -/
theorem emitsPixels_one {s t : State} {p : Pixel} (h : Owes s)
    (ho : t.pixOut = s.pixOut.write s.dec.outCount.toNat p) (hc : t.dec.outCount = s.dec.outCount + 1#64) :
    EmitsPixels s t p 1 := by
  refine ⟨fun a => ?_, by rw [hc, outCount_succ h]⟩
  rw [ho, Memory.read_write]
  congr 1
  simp
  omega

/-- What `deliverPixel` and `finishOpcode` do together (R159, R160, R164). -/
theorem delivers_finish {s : State} (h : Owes s) (p : Pixel) (len : Nat) :
    Delivers s (finishOpcode len (deliverPixel p s)) p len :=
  ⟨rfl, emitsPixels_one h rfl rfl, cacheTakes_write _ _, ⟨rfl, by simp [h.1]⟩, by simp [OpcodeFrame]⟩

/-- Emitting pixels keeps PIX_OUT free of holes, when the counter does not wrap. -/
theorem emitPixels_covers (n : Nat) (p : Pixel) (s : State) (hb : s.dec.outCount.toNat + n < 2 ^ 64)
    (h : s.pixOut.covers s.dec.outCount.toNat) :
    (emitPixels n p s).pixOut.covers (s.dec.outCount.toNat + n) := by
  induction n generalizing s with
  | zero => exact h
  | succ n ih =>
    have hc : (s.dec.outCount + 1#64).toNat = s.dec.outCount.toNat + 1 := by
      rw [BitVec.toNat_add]; simp; omega
    have := ih (emitPixel p s) (by simp only [emitPixel_dec, hc]; omega)
      (by simp only [emitPixel_dec, hc, emitPixel_pixOut]; exact Memory.covers_write h p)
    simp only [emitPixel_dec, hc] at this
    simpa [emitPixels, Nat.add_assoc, Nat.add_comm 1] using this

/-- Bytes written at `out_len` and counted. -/
theorem appendsBytes_writeList {s t : State} (bs : List Byte) (ho : t.out = s.out.writeList s.enc.outLen bs)
    (hl : t.enc.outLen = s.enc.outLen + bs.length) : AppendsBytes s t bs :=
  ⟨fun a => by rw [ho, Memory.read_writeList], hl⟩

/-! The opcodes ENC emits, executed by DEC -/

/-- What ENC emits for a pixel that differs from `prev` is a well-formed opcode. -/
theorem chosen_wellFormed (e : Enc) (cur : Pixel) :
    (chosen e cur).1.wellFormed = true ∧ (chosen e cur).1.isOpcode = true := by
  unfold chosen
  split
  · exact ⟨rfl, rfl⟩
  · exact missOpcode_wellFormed _ _

/-- A DEC that agrees with ENC on `prev` and the cache gives back the pixel that ENC's opcode codes, and holds the cache
that ENC then holds (R137, R48). -/
theorem exec_chosen {u : State} {e : Enc} {cur : Pixel} (ho : Owes u) (hp : u.dec.prev = e.prev)
    (hc : u.dec.cache = e.cache) :
    ∃ v, exec (chosen e cur).1 u = .next v ∧ v.dec.prev = cur ∧ v.dec.cache = (chosen e cur).2 ∧ v.enc = u.enc ∧
      EmitsPixels u v cur 1 ∧ v.dec.pc = u.dec.pc + (encode (chosen e cur).1).length := by
  unfold chosen
  split
  · next hhit =>
    have hk : u.dec.cache.read (hash cur) = cur := by rw [hc, hhit]
    exact ⟨_, opcodeStep_next ho.1, by simp [hk], by simp [hc], rfl, by rw [hk]; exact emitsPixels_one ho rfl rfl, rfl⟩
  · rcases missOpcode_cases e.prev cur with ⟨_, _, _, h, hd⟩ | ⟨_, _, _, h, hd⟩ | h <;> simp only [h]
    · have hk := reconstruct_pixelSub e.prev cur
      rw [← hd, ← hp] at hk
      exact ⟨_, opcodeStep_next ho.1, by simp [hk], by simp [hk, hc], rfl, by rw [hk]; exact emitsPixels_one ho rfl rfl,
        rfl⟩
    · have hk := reconstruct_pixelSub e.prev cur
      rw [← hd, ← hp] at hk
      exact ⟨_, opcodeStep_next ho.1, by simp [hk], by simp [hk, hc], rfl, by rw [hk]; exact emitsPixels_one ho rfl rfl,
        rfl⟩
    · exact ⟨_, opcodeStep_next ho.1, by simp, by simp [hc], rfl, emitsPixels_one ho rfl rfl, rfl⟩

/-- A RUN of no more pixels than are owed emits all of them, and leaves DEC owing pixels when it is of fewer (R154). -/
theorem exec_run_unclipped {u : State} (l : BitVec 6) (ho : Owes u)
    (hn : l.toNat + 1 ≤ u.dec.nTotal.toNat - u.dec.outCount.toNat) :
    ∃ v, exec (.run l) u = .next v ∧ v.dec.prev = u.dec.prev ∧ v.dec.cache = u.dec.cache ∧ v.enc = u.enc ∧
      v.inp = u.inp ∧ EmitsPixels u v u.dec.prev (l.toNat + 1) ∧ v.dec.pc = u.dec.pc + 1 ∧
      (l.toNat + 1 < u.dec.nTotal.toNat - u.dec.outCount.toNat → Owes v) := by
  have hm : min (runLength l) u.dec.owed = l.toNat + 1 := by simp only [runLength, Dec.owed]; omega
  have hf := emitPixels_fields (l.toNat + 1) u.dec.prev u
  have hlt := u.dec.nTotal.isLt
  have howe := ho.2
  have hc : (u.dec.outCount + BitVec.ofNat 64 (l.toNat + 1)).toNat = u.dec.outCount.toNat + (l.toNat + 1) := by
    rw [BitVec.toNat_add, BitVec.toNat_ofNat]; omega
  refine ⟨_, opcodeStep_next ho.1, ?_⟩
  rw [hm]
  refine ⟨by simp [hf.1], by simp [hf.1], by simp [hf.2], by simp [hf.2], ⟨fun a => ?_, ?_⟩, by simp [hf.1], ?_⟩
  · exact emitPixels_read _ _ _ _ (by omega)
  · simp only [finishOpcode_dec, hf.1]; exact hc
  · intro h
    have hne : u.dec.outCount + BitVec.ofNat 64 (l.toNat + 1) ≠ u.dec.nTotal := fun he => by
      have := congrArg BitVec.toNat he; omega
    unfold Owes
    simp only [finishOpcode_dec, hf.1, hc, if_neg hne]
    exact ⟨ho.1, by omega⟩

/-! What a block's step leaves alone -/

/-- An instruction leaves ENC, both inputs and OUT alone. -/
theorem exec_other {i : Instr} {s t : State} (h : exec i s = .next t) :
    t.enc = s.enc ∧ t.out = s.out ∧ t.pixIn = s.pixIn ∧ t.inp = s.inp := by
  rcases exec_cases h with ⟨_, _, _, _, _, _, _, rfl⟩ | ⟨_, ⟨_, rfl⟩ | ⟨_, _, _, rfl⟩ | ⟨_, _, rfl⟩ | ⟨l, _, rfl⟩⟩
  · exact ⟨rfl, rfl, rfl, rfl⟩
  · exact ⟨rfl, rfl, rfl, rfl⟩
  · exact ⟨rfl, rfl, rfl, rfl⟩
  · exact ⟨rfl, rfl, rfl, rfl⟩
  · simp [(emitPixels_fields (min (runLength l) s.dec.owed) s.dec.prev s).2]

/-- DEC's step leaves ENC, both inputs and OUT alone. -/
theorem decStep_other {s t : State} (h : decStep s = .next t) :
    t.enc = s.enc ∧ t.out = s.out ∧ t.pixIn = s.pixIn ∧ t.inp = s.inp := by
  rcases decStep_cases h with ⟨_, _, rfl⟩ | ⟨_, _, ⟨_, _, rfl⟩ | ⟨_, _, _, hx⟩⟩ | ⟨_, ⟨_, _, rfl⟩ | ⟨_, _, _, hx⟩⟩
  · rcases magicStep_cases s with ⟨_, _, e⟩ | ⟨_, _, e⟩ <;> rw [e] <;> exact ⟨rfl, rfl, rfl, rfl⟩
  · exact ⟨rfl, rfl, rfl, rfl⟩
  · exact exec_other hx
  · exact ⟨rfl, rfl, rfl, rfl⟩
  · exact exec_other hx

/-- ENC's step leaves DEC, both inputs and PIX_OUT alone. -/
theorem encStep_other {s t : State} (h : encStep s = .next t) :
    t.dec = s.dec ∧ t.pixOut = s.pixOut ∧ t.pixIn = s.pixIn ∧ t.inp = s.inp := by
  rcases encStep_cases h with ⟨_, rfl⟩ | ⟨_, cur, _, rfl⟩
  · exact ⟨rfl, rfl, rfl, rfl⟩
  · by_cases hc : cur = s.enc.prev
    · subst hc; rw [encPixelStep_run]; split <;> exact ⟨rfl, rfl, rfl, rfl⟩
    · rw [encPixelStep_other hc]; exact ⟨rfl, rfl, rfl, rfl⟩

end Sys2Proof.Machine
end

