-- ==== Sys2Proof/Laws/PerInstr.lean ====
section
/-! SUPPORT. Statements made for every instruction as syntax, one lemma per constructor. -/

namespace Sys2Proof.Laws.EncodedLength

/-- The encoding has as many bytes as the row of the opcode table says (R72, R71). -/
def Statement (i : Instr) : Prop := (encode i).length = i.lengthBytes

theorem rgb (r g b : Byte) : Statement (.rgb r g b) := rfl

theorem rgba : Statement .rgba := rfl

theorem index (key : BitVec 6) : Statement (.index key) := rfl

theorem diff (fr fg fb : BitVec 2) : Statement (.diff fr fg fb) := rfl

theorem luma (fdg : BitVec 6) (frg fbg : BitVec 4) : Statement (.luma fdg frg fbg) := rfl

theorem run (len1 : BitVec 6) : Statement (.run len1) := rfl

theorem header (w h : Dim) (ch cs : Byte) : Statement (.header w h ch cs) := rfl

end Sys2Proof.Laws.EncodedLength

namespace Sys2Proof.Laws.TableMatch

/-- Whether bytes begin as the row of an instruction says: its `match` under its `mask`, and RUN's excluded first bytes. -/
def matchesRow : Instr → List Byte → Bool
  | .rgb _ _ _, b :: _ => b == 0xfe#8
  | .rgba, b :: _ => b == 0xff#8
  | .index _, b :: _ => b &&& 0xc0#8 == 0x00#8
  | .diff _ _ _, b :: _ => b &&& 0xc0#8 == 0x40#8
  | .luma _ _ _, b :: _ => b &&& 0xc0#8 == 0x80#8
  | .run _, b :: _ => b &&& 0xc0#8 == 0xc0#8 && b != 0xfe#8 && b != 0xff#8
  | .header _ _ _ _, bs => bs.take 4 == [0x71#8, 0x6f#8, 0x69#8, 0x66#8]
  | _, [] => false

/-- The encoding of a well-formed instruction matches its own row of the opcode table (R80, R82). -/
def Statement (i : Instr) : Prop := i.wellFormed = true → matchesRow i (encode i) = true

theorem rgb (r g b : Byte) : Statement (.rgb r g b) := fun _ => by simp [encode, matchesRow]

theorem rgba : Statement .rgba := fun _ => by decide

theorem index (key : BitVec 6) : Statement (.index key) := fun _ => by
  revert key; unfold encode matchesRow; decide

theorem diff (fr fg fb : BitVec 2) : Statement (.diff fr fg fb) := fun _ => by
  revert fr fg fb; unfold encode matchesRow; decide

theorem luma (fdg : BitVec 6) (frg fbg : BitVec 4) : Statement (.luma fdg frg fbg) := fun h => by
  clear h; revert fdg; simp only [encode, matchesRow]; decide

theorem run (len1 : BitVec 6) : Statement (.run len1) := by
  revert len1; unfold Statement encode matchesRow; decide

theorem header (w h : Dim) (ch cs : Byte) : Statement (.header w h ch cs) := fun _ => by
  simp only [encode, matchesRow, bytes32, Config.magic]; rfl

end Sys2Proof.Laws.TableMatch
end

