-- ==== Sys2Proof/Tests/Slice0.lean ====
section
/-! SUPPORT. Tests. Expected results come from the spec's vectors (95_test_vectors.md, by section) and examples (by rule);
and, for each obligation with hypotheses, a witness that meets them together. -/

namespace Sys2Proof.Tests

open Sys2Proof Sys2Proof.Machine

/-! Small states -/

/-- The next state of a result, if it is one. -/
def next? : Result → Option State
  | .next t => some t
  | .fault _ => none
  | .refused _ => none

/-- One field of the next state. -/
def sees {α : Type} (r : Result) (f : State → α) : Option α := (next? r).map f

/-- IN of a decode: the header of a `w` by 1 image, `H(w,1)` in the spec's notation, and `ops`. -/
def stream (w : Byte) (ops : List Byte) : List Byte :=
  [0x71#8, 0x6f#8, 0x69#8, 0x66#8, 0#8, 0#8, 0#8, w, 0#8, 0#8, 0#8, 1#8, 3#8, 1#8] ++ ops

/-- DEC after the two header steps on `stream w ops`. -/
def decAt (w : Byte) (ops : List Byte) : State :=
  { State.reset with
    inp := Memory.ofList (stream w ops)
    dec := { Dec.powerOn with
      width := w.setWidth 32, height := 1#32, nTotal := w.setWidth 64, channels := 3#8, colorspace := 1#8,
      pc := 14, phase := .opcodes } }

/-- `decAt` with another previous pixel. -/
def decFrom (w : Byte) (ops : List Byte) (q : Pixel) : State :=
  { decAt w ops with dec := { (decAt w ops).dec with prev := q } }

/-- DEC in HEADER at `pc`, over the bytes `bs`. -/
def hdrAt (pc : Nat) (bs : List Byte) : State :=
  { State.reset with inp := Memory.ofList bs, dec := { Dec.powerOn with phase := .header, pc := pc } }

/-- ENC after its header step on an image of `n` pixels in one row, of which `px` are supplied. -/
def encAt (n : Byte) (px : List Pixel) : State :=
  { State.reset with
    pixIn := Memory.ofList px
    enc := { Enc.powerOn with
      width := n.setWidth 32, height := 1#32, nTotal := n.setWidth 64, outLen := 14, phase := .pixels } }

/-- `encAt` in the middle of a run: previous pixel `q`, `k` pixels pending. -/
def encRunning (n : Byte) (px : List Pixel) (q : Pixel) (k : BitVec 6) : State :=
  { encAt n px with enc := { (encAt n px).enc with prev := q, run := k } }

/-! WellFormed (R76): the only check -/

theorem test_run_61_wellFormed : (Instr.run 61#6).wellFormed = true := by decide
theorem test_run_62_illFormed : (Instr.run 62#6).wellFormed = false := by decide
theorem test_run_63_illFormed : (Instr.run 63#6).wellFormed = false := by decide
theorem test_header_is_no_opcode : (Instr.header 1#32 1#32 3#8 1#8).isOpcode = false := by decide

/-! Decoding: words written out from the formats R71 to R78, with the spec's reading of them -/

/-- R77, R152: `fe c8 64 32` is RGB 200, 100, 50. -/
theorem test_decode_rgb :
    decodeOpcode [0b11111110#8, 0b11001000#8, 0b01100100#8, 0b00110010#8] = .ok (.rgb 200#8 100#8 50#8, []) := by decide
/-- R78. -/
theorem test_decode_rgba : decodeOpcode [0b11111111#8, 0b00000001#8] = .ok (.rgba, [0b00000001#8]) := by decide
/-- R73: key 42. -/
theorem test_decode_index : decodeOpcode [0b00101010#8] = .ok (.index 42#6, []) := by decide
/-- R74, 2.5: `4d` is (-2, 1, -1). -/
theorem test_decode_diff : decodeOpcode [0b01001101#8] = .ok (.diff 0#2 3#2 1#2, []) := by decide
/-- R75, P1: `9a 38` is LUMA -6, -5, 0. -/
theorem test_decode_luma : decodeOpcode [0b10011010#8, 0b00111000#8] = .ok (.luma 26#6 3#4 8#4, []) := by decide
/-- R76, 2.3: `fd` is RUN 62. -/
theorem test_decode_run : decodeOpcode [0b11111101#8] = .ok (.run 61#6, []) := by decide
/-- R71, 2.2: width 258, height 65536. -/
theorem test_decode_header :
    decodeHeader [0x71#8, 0x6f#8, 0x69#8, 0x66#8, 0#8, 0#8, 1#8, 2#8, 0#8, 1#8, 0#8, 0#8, 3#8, 1#8] =
      .ok (.header 258#32 65536#32 3#8 1#8, []) := by decide
/-- R102: `71 6f 69 67` is no magic; three bytes are the end of the stream. -/
theorem test_decode_bad_magic :
    decodeHeader [0x71#8, 0x6f#8, 0x69#8, 0x67#8] = .error .badMagic ∧
    decodeHeader [0x00#8, 0x6f#8, 0x69#8] = .error .endOfStream := by decide
/-- R163: payloads cut short. -/
theorem test_decode_truncated :
    decodeOpcode [] = .error .endOfStream ∧ decodeOpcode [0xfe#8, 1#8, 2#8] = .error .endOfStream ∧
    decodeOpcode [0xa0#8] = .error .endOfStream := by decide

/-- The boundaries of the first-byte map (R82). -/
theorem test_first_byte_boundaries :
    decodeOpcode [0x00#8, 0x88#8] = .ok (.index 0#6, [0x88#8]) ∧
    decodeOpcode [0x3f#8, 0x88#8] = .ok (.index 63#6, [0x88#8]) ∧
    decodeOpcode [0x40#8, 0x88#8] = .ok (.diff 0#2 0#2 0#2, [0x88#8]) ∧
    decodeOpcode [0x7f#8, 0x88#8] = .ok (.diff 3#2 3#2 3#2, [0x88#8]) ∧
    decodeOpcode [0x80#8, 0x88#8] = .ok (.luma 0#6 8#4 8#4, []) ∧
    decodeOpcode [0xbf#8, 0x88#8] = .ok (.luma 63#6 8#4 8#4, []) ∧
    decodeOpcode [0xc0#8, 0x88#8] = .ok (.run 0#6, [0x88#8]) := by decide

/-- The table's own numbers, and how they reach the decoder. -/
theorem test_table_words :
    decodeTableWord 32 0x3264c8fe = some (.rgb 200#8 100#8 50#8) ∧ decodeTableWord 8 0xff = some .rgba ∧
    decodeTableWord 8 0x2a = some (.index 42#6) ∧ decodeTableWord 8 0x4d = some (.diff 0#2 3#2 1#2) ∧
    decodeTableWord 16 0x389a = some (.luma 26#6 3#4 8#4) ∧ decodeTableWord 8 0xc1 = some (.run 1#6) ∧
    decodeTableWord 112 0x01030000000200000004716f6966 = some (.header 4#32 2#32 3#8 1#8) ∧
    decodeTableWord 32 0x716f6966 = some (.header 0#32 0#32 0#8 0#8) := by decide

/-- Each row's word, placed after reset, is what the next step runs. -/
theorem test_step_runs_table_words :
    sees (step (State.reset.withFetchWord 32 0x3264c8fe)) (·.dec.prev) = some ⟨200#8, 100#8, 50#8⟩ ∧
    sees (step (State.reset.withFetchWord 8 0xff)) (·.dec.cause) = some .unsupportedOpcode ∧
    sees (step (State.reset.withFetchWord 8 0x2a)) (·.dec.pc) = some 1 ∧
    sees (step (State.reset.withFetchWord 8 0x40)) (·.dec.prev) = some ⟨254#8, 254#8, 254#8⟩ ∧
    sees (step (State.reset.withFetchWord 16 0x0080)) (·.dec.prev) = some ⟨216#8, 224#8, 216#8⟩ ∧
    sees (step (State.reset.withFetchWord 8 0xc1)) (·.dec.outCount) = some 1#64 ∧
    sees (step (State.reset.withFetchWord 112 0x01030000000200000004716f6966)) (·.dec.nTotal) = some 8#64 := by decide

/-! The decoder (spec vectors by section; P1 to P5 are programs of section 3) -/

/-- P1 at 14: emits (200,100,50), writes cache[42], `pc` 18. -/
theorem test_exec_rgb :
    sees (step (decAt 8#8 [0xfe#8, 0xc8#8, 0x64#8, 0x32#8])) (fun t =>
      (t.pixOut.read 0, t.dec.prev, t.dec.cache.read 42#6, t.dec.pc, t.dec.outCount, t.dec.phase)) =
    some (some ⟨200#8, 100#8, 50#8⟩, ⟨200#8, 100#8, 50#8⟩, ⟨200#8, 100#8, 50#8⟩, 18, 1#64, .opcodes) := by decide
/-- 2.7: `fe 01 02` at the end: fault 2 at 14, nothing emitted. -/
theorem test_rgb_truncated :
    sees (step (decAt 1#8 [0xfe#8, 1#8, 2#8])) (fun t =>
      (t.dec.phase, t.dec.cause, t.dec.faultPc, t.dec.outCount, t.pixOut.read 0)) =
    some (.fault, .unexpectedEndOfStream, 14, 0#64, none) := by decide
/-- 2.8: `H(1,1) ff`. -/
theorem test_exec_rgba :
    sees (step (decAt 1#8 [0xff#8])) (fun t =>
      (t.dec.phase, t.dec.cause.code, t.dec.faultPc, t.dec.faultByte, t.dec.outCount, t.dec.pc)) =
    some (.fault, 3, 14, 0xff#8, 0#64, 14) := by decide
/-- 2.8: `H(1,1) 7f ff 00 11`: DONE at 15, the trailing `ff` is never read. -/
theorem test_trailing_ff_ignored :
    sees (step (decAt 1#8 [0x7f#8, 0xff#8, 0x00#8, 0x11#8])) (fun t =>
      (t.dec.phase, t.dec.pc, t.dec.prev, t.dec.ready)) = some (.done, 15, ⟨1#8, 1#8, 1#8⟩, false) := by decide
/-- 2.4: INDEX of a slot never written yields (0,0,0) and becomes `prev`. -/
theorem test_exec_index :
    sees (step (decFrom 2#8 [0x05#8] ⟨9#8, 9#8, 9#8⟩)) (fun t =>
      (t.pixOut.read 0, t.dec.prev, t.dec.cache.read 5#6, t.dec.pc)) =
    some (some ⟨0#8, 0#8, 0#8⟩, ⟨0#8, 0#8, 0#8⟩, ⟨0#8, 0#8, 0#8⟩, 15) := by decide
/-- R156: `prev = (200,100,50)`, `7f` emits (201,101,51) and writes cache[57]. -/
theorem test_exec_diff :
    sees (step (decFrom 2#8 [0x7f#8] ⟨200#8, 100#8, 50#8⟩)) (fun t =>
      (t.pixOut.read 0, t.dec.cache.read 57#6, t.dec.cache.read 42#6)) =
    some (some ⟨201#8, 101#8, 51#8⟩, ⟨201#8, 101#8, 51#8⟩, ⟨0#8, 0#8, 0#8⟩) := by decide
/-- 2.5: `prev = (255,0,128)`, `7f` wraps to (0,1,129); `prev = (0,0,0)`, `40` wraps to (254,254,254). -/
theorem test_diff_wraps :
    sees (step (decFrom 2#8 [0x7f#8] ⟨255#8, 0#8, 128#8⟩)) (·.dec.prev) = some ⟨0#8, 1#8, 129#8⟩ ∧
    sees (step (decAt 2#8 [0x40#8])) (·.dec.prev) = some ⟨254#8, 254#8, 254#8⟩ := by decide
/-- 2.6: `a0 fe` is (7,0,6): its second byte is data. -/
theorem test_exec_luma :
    sees (step (decAt 2#8 [0xa0#8, 0xfe#8])) (fun t => (t.dec.prev, t.dec.pc)) = some (⟨7#8, 0#8, 6#8⟩, 16) := by decide
/-- P2 at 19: `prev = (0,1,129)`, `80 00` gives (216,225,89) and writes cache[28]. -/
theorem test_luma_wraps :
    sees (step (decFrom 5#8 [0x80#8, 0x00#8] ⟨0#8, 1#8, 129#8⟩)) (fun t => (t.dec.prev, t.dec.cache.read 28#6)) =
    some (⟨216#8, 225#8, 89#8⟩, ⟨216#8, 225#8, 89#8⟩) := by decide
/-- P1 at 19: RUN 2 of (201,101,51). -/
theorem test_exec_run :
    sees (step (decFrom 8#8 [0xc1#8] ⟨201#8, 101#8, 51#8⟩)) (fun t =>
      (t.pixOut.elements, t.dec.outCount, t.dec.prev, t.dec.run, t.dec.phase)) =
    some ([⟨201#8, 101#8, 51#8⟩, ⟨201#8, 101#8, 51#8⟩], 2#64, ⟨201#8, 101#8, 51#8⟩, 0#6, .opcodes) := by decide
/-- 2.3: `H(3,1) fd`: RUN 62 clipped to 3, DONE at 15. -/
theorem test_run_clipped :
    sees (step (decAt 3#8 [0xfd#8])) (fun t => (t.pixOut.elements, t.dec.outCount, t.dec.phase, t.dec.pc)) =
    some ([⟨0#8, 0#8, 0#8⟩, ⟨0#8, 0#8, 0#8⟩, ⟨0#8, 0#8, 0#8⟩], 3#64, .done, 15) := by decide
/-- R103: `00 00 00 04 00 00 00 02 03 01` gives width 4, height 2, n_total 8. -/
theorem test_exec_header :
    sees (step (hdrAt 4 (stream 4#8 [] |>.set 11 2#8))) (fun t =>
      ((t.dec.width, t.dec.height, t.dec.nTotal), (t.dec.channels, t.dec.colorspace), (t.dec.pc, t.dec.phase))) =
    some ((4#32, 2#32, 8#64), (3#8, 1#8), (14, .opcodes)) := by decide
/-- 2.2: 13 bytes fault at 4 and leave `width` 0; a header of no pixels is DONE at 14. -/
theorem test_header_short_and_empty :
    sees (step (hdrAt 4 ((stream 1#8 []).take 13))) (fun t => (t.dec.cause.code, t.dec.faultPc, t.dec.width)) =
      some (2, 4, 0#32) ∧
    sees (step (hdrAt 4 (stream 0#8 [0xff#8]))) (fun t => (t.dec.phase, t.dec.pc)) = some (.done, 14) := by decide
/-- 2.2: the magic step on a good stream, `71 6f 69 67`, `00 6f 69` and nothing. -/
theorem test_magic_step :
    sees (step (hdrAt 0 (stream 1#8 []))) (fun t => (t.dec.phase, t.dec.pc)) = some (.header, 4) ∧
    sees (step (hdrAt 0 [0x71#8, 0x6f#8, 0x69#8, 0x67#8])) (fun t => (t.dec.cause.code, t.dec.faultPc)) = some (1, 0) ∧
    sees (step (hdrAt 0 [0x00#8, 0x6f#8, 0x69#8])) (fun t => (t.dec.cause.code, t.dec.faultPc)) = some (2, 0) ∧
    sees (step (hdrAt 0 [])) (fun t => (t.dec.cause.code, t.dec.faultPc)) = some (2, 0) := by decide

/-! The encoder -/

/-- 2.2: ENC header of 258 by 65536. -/
theorem test_enc_header :
    sees (encStep { State.reset with enc := Enc.started 258#32 65536#32 }) (fun t =>
      (t.out.elements, t.enc.outLen, t.enc.phase)) =
    some ([0x71#8, 0x6f#8, 0x69#8, 0x66#8, 0#8, 0#8, 1#8, 2#8, 0#8, 1#8, 0#8, 0#8, 3#8, 1#8], 14, .pixels) := by decide
/-- S4: (1,1,1) is DIFF `7f`; (2,0,0) is LUMA `a0 a8`; (39,32,39) is RGB `fe 27 20 27`. -/
theorem test_enc_boundaries :
    (sees (step (encAt 1#8 [⟨1#8, 1#8, 1#8⟩])) (·.out.elements)) = some [0x7f#8] ∧
    (sees (step (encAt 1#8 [⟨2#8, 0#8, 0#8⟩])) (·.out.elements)) = some [0xa0#8, 0xa8#8] ∧
    (sees (step (encAt 1#8 [⟨39#8, 32#8, 39#8⟩])) (·.out.elements)) = some [0xfe#8, 0x27#8, 0x20#8, 0x27#8] := by decide
/-- 2.7, C2: after (255,255,255), (0,255,255) is RGB: the difference -255 does not wrap to +1. -/
theorem test_enc_unwrapped_delta :
    (sees (step (encRunning 1#8 [⟨0#8, 255#8, 255#8⟩] ⟨255#8, 255#8, 255#8⟩ 0#6)) (·.out.elements)) =
    some [0xfe#8, 0x00#8, 0xff#8, 0xff#8] := by decide
/-- 2.3: with `prev = (7,7,7)` and `run = 3`, the step of (9,9,9) emits `c2` and then `a2 88`. -/
theorem test_enc_pending_run :
    (sees (step (encRunning 2#8 [⟨9#8, 9#8, 9#8⟩] ⟨7#8, 7#8, 7#8⟩ 3#6)) (fun t => (t.out.elements, t.enc.run))) =
    some ([0xc2#8, 0xa2#8, 0x88#8], 0#6) := by decide
/-- P6: the 62nd black pixel emits `fd` in its own step. -/
theorem test_enc_run_limit :
    (sees (step (encRunning 64#8 [⟨0#8, 0#8, 0#8⟩] ⟨0#8, 0#8, 0#8⟩ 61#6)) (fun t =>
      (t.out.elements, t.enc.run, t.enc.phase))) = some ([0xfd#8], 0#6, .pixels) := by decide
/-- 2.4: (0,0,0) after (5,5,5) hits the slot nothing has written: `00`. S1: a last pixel flushes its run: `c1`. -/
theorem test_enc_index_and_last :
    (sees (step (encRunning 2#8 [⟨0#8, 0#8, 0#8⟩] ⟨5#8, 5#8, 5#8⟩ 0#6)) (·.out.elements)) = some [0x00#8] ∧
    (sees (step (encRunning 1#8 [⟨0#8, 0#8, 0#8⟩] ⟨0#8, 0#8, 0#8⟩ 1#6)) (fun t => (t.out.elements, t.enc.phase))) =
      some ([0xc1#8], .done) := by decide
/-- 2.1: the hashes of (255,0,128), (201,101,51) and (255,255,255). -/
theorem test_hash :
    Machine.hash ⟨255#8, 0#8, 128#8⟩ = 61#6 ∧ Machine.hash ⟨201#8, 101#8, 51#8⟩ = 57#6 ∧ Machine.hash ⟨255#8, 255#8, 255#8⟩ = 49#6 := by decide

/-! The stops by name -/

/-- R197a and R206: stuck without its pixel, refused while busy, at rest with nothing to do. -/
theorem test_stops :
    step (encAt 1#8 []) = .fault .encoderStuck ∧
    step { decAt 1#8 [] with agenda := [.decStart []] } = .refused .startWhileBusy ∧
    step State.reset = .fault .atRest := ⟨rfl, rfl, rfl⟩

/-! The assembler of R88 -/

/-- P1's mnemonics give P1's bytes; `RUN 63` is refused (R89). -/
theorem test_assemble :
    (Asm.rgb 200 100 50).assemble = some [0xfe#8, 0xc8#8, 0x64#8, 0x32#8] ∧
    (Asm.diff 1 1 1).assemble = some [0x7f#8] ∧ (Asm.luma (-6) (-5) 0).assemble = some [0x9a#8, 0x38#8] ∧
    (Asm.run 62).assemble = some [0xfd#8] ∧ (Asm.run 63).assemble = none ∧ (Asm.run 0).assemble = none ∧
    (Asm.header 4 2).assemble =
      some [0x71#8, 0x6f#8, 0x69#8, 0x66#8, 0#8, 0#8, 0#8, 4#8, 0#8, 0#8, 0#8, 2#8, 3#8, 1#8] := by decide

/-! Witnesses: for each obligation with hypotheses, values that meet them together; where it has clauses, for each clause,
at the ends of its range. -/

/-- BiasedFieldsHoldTheirDeltas: both ends of each range, with R84's field values. -/
theorem witness_biasedFields :
    (biased 2 2 (-2) = 0#2 ∧ biased 2 2 1 = 3#2) ∧ (biased 6 32 (-32) = 0#6 ∧ biased 6 32 31 = 63#6) ∧
    (biased 4 8 (-8) = 0#4 ∧ biased 4 8 7 = 15#4) := by decide

/-- EveryOpcodeDecodesFromItsEncoding, at the largest RUN. -/
theorem witness_everyOpcode : (Instr.run 61#6).isOpcode = true ∧ (Instr.run 61#6).wellFormed = true := by decide

/-- DecodedBytesAreTheEncoding, both clauses. -/
theorem witness_decodedBytes :
    decodeOpcode (encode (.luma 63#6 15#4 0#4) ++ [0xff#8]) = .ok (.luma 63#6 15#4 0#4, [0xff#8]) ∧
    decodeHeader (encode (.header 1#32 0#32 4#8 0#8) ++ [0xff#8]) = .ok (.header 1#32 0#32 4#8 0#8, [0xff#8]) := by
  decide

/-- FirstByteMapIsTotal: the last RUN byte and the two exact bytes (the other ends are in test_first_byte_boundaries). -/
theorem witness_firstByteMap :
    decodeOpcode [0xfd#8, 1#8, 2#8, 3#8] = .ok (.run 61#6, [1#8, 2#8, 3#8]) ∧
    decodeOpcode [0xfe#8, 1#8, 2#8, 3#8] = .ok (.rgb 1#8 2#8 3#8, []) ∧
    decodeOpcode [0xff#8, 1#8, 2#8, 3#8] = .ok (.rgba, [1#8, 2#8, 3#8]) := by decide

/-- StartCommandsWriteEveryRegister: a start from IDLE of each block, and from FAULT. -/
theorem witness_start :
    (∃ s : State, s.agenda = [.encStart 1#32 1#32 [Pixel.black]] ∧ s.enc.phase = .idle) ∧
    (∃ s : State, s.agenda = [.decStart []] ∧ s.dec.phase = .idle) ∧
    (∃ s : State, s.agenda = [.decStart []] ∧ s.dec.phase = .fault) :=
  ⟨⟨{ State.reset with agenda := _ }, rfl, rfl⟩, ⟨{ State.reset with agenda := _ }, rfl, rfl⟩,
    ⟨{ takeFault .formatError State.reset with agenda := _ }, rfl, rfl⟩⟩

/-- StartWhileBusyIsRefused, both clauses. -/
theorem witness_busy :
    (∃ s : State, s.agenda = [.encStart 1#32 1#32 []] ∧ s.enc.phase = .pixels) ∧
    (∃ s : State, s.agenda = [.decStart []] ∧ s.dec.phase = .opcodes) :=
  ⟨⟨{ encAt 1#8 [] with agenda := _ }, rfl, rfl⟩, ⟨{ decAt 1#8 [] with agenda := _ }, rfl, rfl⟩⟩

/-- AgendaDrivesTheStep, clause by clause. -/
theorem witness_agenda :
    (∃ s : State, s.agenda = .encTurn :: [.decTurn]) ∧
    ((decAt 1#8 []).agenda = [] ∧ (decAt 1#8 []).dec.ready = true) ∧
    ((encAt 1#8 [Pixel.black]).agenda = [] ∧ (encAt 1#8 [Pixel.black]).dec.ready = false ∧
      (encAt 1#8 [Pixel.black]).encReady = true) ∧
    State.reset.dec.ready = false ∧ (encAt 1#8 []).encReady = false ∧
    (State.reset.agenda = [] ∧ State.reset.dec.phase = .idle ∧ State.reset.enc.phase = .idle) :=
  ⟨⟨{ State.reset with agenda := _ }, rfl⟩, by decide⟩

/-- StepRunsTheDecodedInstruction, first clause, with the longest opcode. -/
theorem witness_stepRuns_opcode :
    (decAt 1#8 [0xfe#8, 1#8, 2#8, 3#8]).dec.phase = .opcodes ∧
    (∀ k, k < [0xfe#8, 1#8, 2#8, 3#8].length →
      (decAt 1#8 [0xfe#8, 1#8, 2#8, 3#8]).inp.read (14 + k) = [0xfe#8, 1#8, 2#8, 3#8][k]?) ∧
    decodeOpcode [0xfe#8, 1#8, 2#8, 3#8] = .ok (.rgb 1#8 2#8 3#8, []) := by decide

/-- StepRunsTheDecodedInstruction, second clause. -/
theorem witness_stepRuns_header :
    (hdrAt 4 (stream 1#8 [])).dec.phase = .header ∧ (hdrAt 4 (stream 1#8 [])).dec.pc = 4 ∧
    (stream 1#8 []).length = 14 ∧
    (∀ k, k < 14 → (hdrAt 4 (stream 1#8 [])).inp.read k = (stream 1#8 [])[k]?) ∧
    decodeHeader (stream 1#8 []) = .ok (.header 1#32 1#32 3#8 1#8, []) := by decide

/-- MagicStepChecksFourBytes: three bytes, four right ones, four wrong ones. -/
theorem witness_magicStep :
    (hdrAt 0 []).dec.phase = .header ∧ (hdrAt 0 []).dec.pc = 0 ∧
    ((hdrAt 0 [0x71#8, 0x6f#8, 0x69#8]).inp.dense ∧ (hdrAt 0 [0x71#8, 0x6f#8, 0x69#8]).inp.length < 4) ∧
    ((hdrAt 0 (stream 1#8 [])).inp.dense ∧ 4 ≤ (hdrAt 0 (stream 1#8 [])).inp.length ∧
      (hdrAt 0 (stream 1#8 [])).inp.read 0 = some 0x71#8 ∧ (hdrAt 0 (stream 1#8 [])).inp.read 1 = some 0x6f#8 ∧
      (hdrAt 0 (stream 1#8 [])).inp.read 2 = some 0x69#8 ∧ (hdrAt 0 (stream 1#8 [])).inp.read 3 = some 0x66#8) ∧
    ((hdrAt 0 [0x71#8, 0x6f#8, 0x69#8, 0x67#8]).inp.dense ∧
      4 ≤ (hdrAt 0 [0x71#8, 0x6f#8, 0x69#8, 0x67#8]).inp.length ∧
      (hdrAt 0 [0x71#8, 0x6f#8, 0x69#8, 0x67#8]).inp.read 3 ≠ some 0x66#8) := by decide

/-- HeaderLatchesTheDimensions: the phase and position, and a header one byte short. -/
theorem witness_header :
    ((hdrAt 4 ((stream 1#8 []).take 13)).dec.phase = .header ∧ (hdrAt 4 ((stream 1#8 []).take 13)).dec.pc = 4) ∧
    (hdrAt 4 ((stream 1#8 []).take 13)).inp.dense ∧ (hdrAt 4 ((stream 1#8 []).take 13)).inp.length < 14 := by decide

/-- RgbDeliversItsPayload, RunRepeatsThePreviousPixel, IndexEmitsTheSlotOfItsKey, DiffAddsSmallDeltas,
LumaAddsDeltasFromGreen: a state that owes pixels, more than a RUN takes and fewer. -/
theorem witness_owes : Owes (decAt 200#8 []) ∧ Owes (decAt 1#8 []) := ⟨by unfold Owes; decide, by unfold Owes; decide⟩

/-- RgbDeliversItsPayload and TruncatedOpcodeFaults: an RGB one byte short. -/
theorem witness_rgb_short :
    (decAt 1#8 [0xfe#8, 1#8, 2#8]).dec.phase = .opcodes ∧ (decAt 1#8 [0xfe#8, 1#8, 2#8]).inp.dense ∧
    (decAt 1#8 [0xfe#8, 1#8, 2#8]).inp.read 14 = some 0xfe#8 ∧
    (decAt 1#8 [0xfe#8, 1#8, 2#8]).inp.length < 14 + 4 := by decide

/-- LumaAddsDeltasFromGreen and TruncatedOpcodeFaults: a LUMA one byte short, at both ends of its range. -/
theorem witness_luma_short :
    ((decAt 1#8 [0x80#8]).dec.phase = .opcodes ∧ (decAt 1#8 [0x80#8]).inp.dense ∧
      (decAt 1#8 [0x80#8]).inp.read 14 = some 0x80#8 ∧ (decAt 1#8 [0x80#8]).inp.length < 14 + 2) ∧
    ((decAt 1#8 [0xbf#8]).inp.read 14 = some 0xbf#8 ∧ (decAt 1#8 [0xbf#8]).inp.length < 14 + 2) := by decide

/-- TruncatedOpcodeFaults: no first byte at all; and a step that brings the cause, for the second clause. -/
theorem witness_truncated :
    ((decAt 1#8 []).dec.phase = .opcodes ∧ (decAt 1#8 []).inp.dense ∧ (decAt 1#8 []).inp.length ≤ 14) ∧
    ∃ t, runEvent .decTurn (decAt 1#8 []) = .next t ∧ (decAt 1#8 []).dec.cause ≠ .unexpectedEndOfStream ∧
      t.dec.cause = .unexpectedEndOfStream := ⟨by decide, _, rfl, by decide, rfl⟩

/-- RgbaRaisesUnsupportedOpcode: the byte in place, and a step that brings the cause. -/
theorem witness_rgba :
    (decAt 1#8 [0xff#8]).dec.phase = .opcodes ∧ (decAt 1#8 [0xff#8]).inp.read 14 = some 0xff#8 ∧
    ∃ t, step (decAt 1#8 [0xff#8]) = .next t ∧ (decAt 1#8 [0xff#8]).dec.cause ≠ .unsupportedOpcode ∧
      t.dec.cause = .unsupportedOpcode := ⟨by decide, by decide, _, rfl, by decide, rfl⟩

/-- RunRepeatsThePreviousPixel, IndexEmitsTheSlotOfItsKey, DiffAddsSmallDeltas, LumaAddsDeltasFromGreen: the first and the
last byte of each range. -/
theorem witness_byte_ranges :
    (0xc0 ≤ (0xc0#8).toNat ∧ (0xfd#8).toNat ≤ 0xfd) ∧ (0x3f#8).toNat ≤ 0x3f ∧
    (0x40 ≤ (0x40#8).toNat ∧ (0x7f#8).toNat ≤ 0x7f) ∧ (0x80 ≤ (0x80#8).toNat ∧ (0xbf#8).toNat ≤ 0xbf) := by decide

/-- OpcodesKeepPrevAndCacheRules: one opcode of each of its three kinds that does not fault. -/
theorem witness_opcodesKeep :
    Owes (decAt 2#8 []) ∧
    (∃ t, exec (.diff 3#2 3#2 3#2) (decAt 2#8 []) = .next t ∧ t.dec.phase ≠ .fault) ∧
    (∃ t, exec (.index 63#6) (decAt 2#8 []) = .next t ∧ t.dec.phase ≠ .fault) ∧
    (∃ t, exec (.run 61#6) (decAt 2#8 []) = .next t ∧ t.dec.phase ≠ .fault) :=
  ⟨by unfold Owes; decide, ⟨_, rfl, by decide⟩, ⟨_, rfl, by decide⟩, ⟨_, rfl, by decide⟩⟩

/-- Power-on meets the invariant of a step boundary. -/
theorem witness_inv_reset : State.reset.Inv where
  enc := by constructor <;> decide
  dec := by constructor <;> decide
  pixIn_dense := by decide
  inp_dense := by decide

/-- EveryStepKeepsTheInvariant, TerminationIsByCount, EveryOpcodeStepMakesProgress, OutputsAreAppendOnly: a state in
OPCODES that meets the invariant and steps. -/
theorem witness_inv_opcodes :
    (decAt 1#8 [0x7f#8]).Inv ∧ (decAt 1#8 [0x7f#8]).dec.phase = .opcodes ∧
    (∃ t, step (decAt 1#8 [0x7f#8]) = .next t) ∧ ∃ t, runEvent .decTurn (decAt 1#8 [0x7f#8]) = .next t where
  left := by
    refine ⟨?_, ?_, by decide, by decide⟩ <;> constructor <;> decide
  right := ⟨by decide, ⟨_, rfl⟩, _, rfl⟩

/-- TerminationIsByCount, from the dimensions step: no pixels owed, and one. -/
theorem witness_inv_header :
    ((hdrAt 4 (stream 0#8 [])).Inv ∧ ∃ t, runEvent .decTurn (hdrAt 4 (stream 0#8 [])) = .next t) ∧
    ((hdrAt 4 (stream 1#8 [])).Inv ∧ ∃ t, runEvent .decTurn (hdrAt 4 (stream 1#8 [])) = .next t) := by
  refine ⟨⟨⟨?_, ?_, by decide, by decide⟩, _, rfl⟩, ⟨?_, ?_, by decide, by decide⟩, _, rfl⟩ <;> constructor <;> decide

/-- DEC after the black image of one pixel. -/
def doneState : State where
  enc := Enc.powerOn
  pixIn := []
  out := []
  dec := { Dec.powerOn with
    phase := .done, width := 1#32, height := 1#32, nTotal := 1#64, outCount := 1#64, pc := 15 }
  inp := Memory.ofList (stream 1#8 [0xc0#8])
  pixOut := [(0, Pixel.black)]
  agenda := []

/-- ResultIsDefinedOnlyInDone and DoneAndFaultAreLeftOnlyByStart: a state in DONE and one in FAULT that meet the
invariant, with the host's next command or without. -/
theorem witness_done_and_fault :
    (∃ s : State, s.Inv ∧ s.dec.phase = .done ∧ s.dec.nTotal = 1#64) ∧
    (∃ s : State, s.Inv ∧ s.dec.phase = .fault ∧ ¬ StartsDecoder s ∧ ∃ t, step s = .next t) ∧
    (∃ s : State, s.dec.phase = .fault ∧ StartsDecoder s ∧ ∃ t, step s = .next t) := by
  refine ⟨⟨doneState, ⟨?_, ?_, by decide, by decide⟩, rfl, rfl⟩,
    ⟨{ takeFault .formatError State.reset with agenda := [.decTurn] }, ⟨?_, ?_, by decide, by decide⟩, rfl,
      (by rintro ⟨_, _, h⟩; cases h), _, rfl⟩,
    ⟨{ takeFault .formatError State.reset with agenda := [.decStart []] }, rfl, ⟨_, _, rfl⟩, _, rfl⟩⟩ <;>
  constructor <;> decide

/-- FaultEntryWritesNothingElse: each of the three faults is entered by some step. -/
theorem witness_faultEntry :
    (∃ t, step (hdrAt 0 [0#8, 0#8, 0#8, 0#8]) = .next t ∧ t.dec.phase = .fault) ∧
    (∃ t, step (decAt 1#8 []) = .next t ∧ t.dec.phase = .fault) ∧
    (∃ t, step (decAt 1#8 [0xff#8]) = .next t ∧ t.dec.phase = .fault) ∧
    (hdrAt 0 [0#8, 0#8, 0#8, 0#8]).dec.phase ≠ .fault ∧ (decAt 1#8 []).dec.phase ≠ .fault :=
  ⟨⟨_, rfl, rfl⟩, ⟨_, rfl, rfl⟩, ⟨_, rfl, rfl⟩, by decide, by decide⟩

/-- PcNeverMovesBackwards, InputsAreConstantWithinAnInvocation, OutputsAreAppendOnly, AStepChangesOneBlockAtMost: a step
that is no start command, of each block; and a start command of each. -/
theorem witness_steps :
    (¬ StartsDecoder (decAt 1#8 [0x7f#8]) ∧ ¬ StartsEncoder (decAt 1#8 [0x7f#8]) ∧
      ∃ t, step (decAt 1#8 [0x7f#8]) = .next t) ∧
    (∃ t, step (encAt 1#8 [⟨1#8, 1#8, 1#8⟩]) = .next t) ∧
    (∃ s t, StartsDecoder s ∧ step s = .next t) ∧ ∃ s t, StartsEncoder s ∧ step s = .next t :=
  ⟨⟨(by rintro ⟨_, _, h⟩; cases h), (by rintro ⟨_, _, _, _, h⟩; cases h), _, rfl⟩, ⟨_, rfl⟩,
    ⟨{ State.reset with agenda := [.decStart []] }, _, ⟨_, _, rfl⟩, rfl⟩,
    ⟨{ State.reset with agenda := [.encStart 0#32 0#32 []] }, _, ⟨_, _, _, _, rfl⟩, rfl⟩⟩

/-- EncoderEmitsTheHeader: with pixels to come, and with none. -/
theorem witness_encHeader :
    (∃ s : State, s.enc.phase = .header ∧ s.enc.nTotal = 0#64) ∧ ∃ s : State, s.enc.phase = .header ∧ s.enc.nTotal = 1#64 :=
  ⟨⟨{ State.reset with enc := Enc.started 0#32 7#32 }, rfl, rfl⟩,
    ⟨{ State.reset with enc := Enc.started 1#32 1#32 }, rfl, rfl⟩⟩

/-- EqualPixelIsCountedOrFlushed: a run that grows, one that reaches 62, one that ends with the image. -/
theorem witness_equalPixel :
    EncHas (encRunning 2#8 [⟨7#8, 7#8, 7#8⟩] ⟨7#8, 7#8, 7#8⟩ 0#6) ⟨7#8, 7#8, 7#8⟩ ∧
    EncHas (encRunning 2#8 [⟨7#8, 7#8, 7#8⟩] ⟨7#8, 7#8, 7#8⟩ 61#6) ⟨7#8, 7#8, 7#8⟩ ∧
    EncHas (encRunning 1#8 [⟨7#8, 7#8, 7#8⟩] ⟨7#8, 7#8, 7#8⟩ 0#6) ⟨7#8, 7#8, 7#8⟩ := by
  refine ⟨?_, ?_, ?_⟩ <;> (unfold EncHas; decide)

/-- CachedPixelEmitsIndex: (0,0,0) after (5,5,5), with a run pending and without. -/
theorem witness_cachedPixel :
    EncHas (encRunning 2#8 [Pixel.black] ⟨5#8, 5#8, 5#8⟩ 0#6) Pixel.black ∧
    EncHas (encRunning 2#8 [Pixel.black] ⟨5#8, 5#8, 5#8⟩ 61#6) Pixel.black ∧
    Pixel.black ≠ ⟨5#8, 5#8, 5#8⟩ ∧ (0#6).toNat = (3 * 0 + 5 * 0 + 7 * 0) % 64 ∧
    (encRunning 2#8 [Pixel.black] ⟨5#8, 5#8, 5#8⟩ 61#6).enc.cache.read 0#6 = Pixel.black := by
  refine ⟨?_, ?_, by decide⟩ <;> (unfold EncHas; decide)

/-- MissedPixelEmitsDiffLumaOrRgb and PixelStepEmitsAtMostFiveBytes: a DIFF, a LUMA and an RGB pixel of S4, the last with a
run pending. -/
theorem witness_missedPixel :
    EncHas (encAt 1#8 [⟨1#8, 1#8, 1#8⟩]) ⟨1#8, 1#8, 1#8⟩ ∧ EncHas (encAt 1#8 [⟨38#8, 31#8, 38#8⟩]) ⟨38#8, 31#8, 38#8⟩ ∧
    EncHas (encRunning 1#8 [⟨39#8, 32#8, 39#8⟩] Pixel.black 61#6) ⟨39#8, 32#8, 39#8⟩ ∧
    (⟨39#8, 32#8, 39#8⟩ : Pixel) ≠ Pixel.black ∧ (38#6).toNat = (3 * 39 + 5 * 32 + 7 * 39) % 64 ∧
    (encRunning 1#8 [⟨39#8, 32#8, 39#8⟩] Pixel.black 61#6).enc.cache.read 38#6 ≠ ⟨39#8, 32#8, 39#8⟩ ∧
    InDiffBox ⟨1, 1, 1⟩ ∧ (¬ InDiffBox ⟨38, 31, 38⟩ ∧ InLumaBox ⟨38, 31, 38⟩) ∧ ¬ InLumaBox ⟨39, 32, 39⟩ := by
  refine ⟨?_, ?_, ?_, by decide⟩ <;> (unfold EncHas; decide)

/-- EncoderNeverFaults: ENC with a step, and without its pixel while DEC has no step. -/
theorem witness_encoderNeverFaults :
    (encAt 1#8 [Pixel.black]).encReady = true ∧ (encAt 1#8 []).enc.phase = .pixels ∧
    (encAt 1#8 []).pixIn.read 0 = none ∧ (encAt 1#8 []).agenda = [] ∧ (encAt 1#8 []).dec.ready = false := by decide

/-- EachBlockDependsOnItsOwnStateAlone: two states that agree on DEC's side and differ on ENC's, and the other way
round. -/
theorem witness_ownState :
    (∃ s' t : State, s'.dec = (decAt 1#8 [0x7f#8]).dec ∧ s'.inp = (decAt 1#8 [0x7f#8]).inp ∧
      s'.pixOut = (decAt 1#8 [0x7f#8]).pixOut ∧ s'.enc ≠ (decAt 1#8 [0x7f#8]).enc ∧
      runEvent .decTurn (decAt 1#8 [0x7f#8]) = .next t) ∧
    ∃ s' t : State, s'.enc = (encAt 1#8 [Pixel.black]).enc ∧ s'.pixIn = (encAt 1#8 [Pixel.black]).pixIn ∧
      s'.out = (encAt 1#8 [Pixel.black]).out ∧ s'.dec ≠ (encAt 1#8 [Pixel.black]).dec ∧
      runEvent .encTurn (encAt 1#8 [Pixel.black]) = .next t :=
  ⟨⟨{ decAt 1#8 [0x7f#8] with enc := Enc.started 1#32 1#32 }, _, rfl, rfl, rfl, by decide, rfl⟩,
    { encAt 1#8 [Pixel.black] with dec := Dec.started }, _, rfl, rfl, rfl, by decide, rfl⟩

/-- Both blocks in the middle of an image: ENC's next pixel is `p`, `k` pixels are pending, and IN holds `ops` at DEC's
`pc`. -/
def looped (p : Pixel) (k : BitVec 6) (ops : List Byte) : State :=
  { decAt 9#8 ops with enc := (encRunning 1#8 [p] Pixel.black k).enc, pixIn := [(0, p)] }

/-- LockstepIsKept, first clause: a pixel coded as `7f` by the step and read back by DEC. -/
theorem witness_lockstep_pixel :
    EncHas (looped ⟨1#8, 1#8, 1#8⟩ 0#6 [0x7f#8]) ⟨1#8, 1#8, 1#8⟩ ∧ (⟨1#8, 1#8, 1#8⟩ : Pixel) ≠ Pixel.black ∧
    Lockstep (looped ⟨1#8, 1#8, 1#8⟩ 0#6 [0x7f#8]) ∧ Owes (looped ⟨1#8, 1#8, 1#8⟩ 0#6 [0x7f#8]) ∧
    ∃ t, runEvent .encTurn (looped ⟨1#8, 1#8, 1#8⟩ 0#6 [0x7f#8]) = .next t ∧
      ReadsAppended (looped ⟨1#8, 1#8, 1#8⟩ 0#6 [0x7f#8]) t :=
  ⟨by unfold EncHas; decide, by decide, ⟨rfl, rfl⟩, by unfold Owes; decide, _, rfl, by unfold ReadsAppended; decide⟩

/-- LockstepIsKept, second clause: a run of three flushed with the last pixel. -/
theorem witness_lockstep_run :
    EncHas (looped Pixel.black 2#6 [0xc2#8]) Pixel.black ∧ Lockstep (looped Pixel.black 2#6 [0xc2#8]) ∧
    Owes (looped Pixel.black 2#6 [0xc2#8]) ∧ (2#6).toNat + 1 ≤ 9 - 0 ∧
    ∃ t, runEvent .encTurn (looped Pixel.black 2#6 [0xc2#8]) = .next t ∧ t.enc.run = 0#6 ∧
      ReadsAppended (looped Pixel.black 2#6 [0xc2#8]) t :=
  ⟨by unfold EncHas; decide, ⟨rfl, rfl⟩, by unfold Owes; decide, by decide, _, rfl, rfl, by
    unfold ReadsAppended; decide⟩

/-- LockstepIsKept, third clause: a pending run of eight, as many as leave one of nine pixels owed, and then `7f`. -/
theorem witness_lockstep_flush :
    EncHas (looped ⟨1#8, 1#8, 1#8⟩ 8#6 [0xc7#8, 0x7f#8]) ⟨1#8, 1#8, 1#8⟩ ∧ (⟨1#8, 1#8, 1#8⟩ : Pixel) ≠ Pixel.black ∧
    Lockstep (looped ⟨1#8, 1#8, 1#8⟩ 8#6 [0xc7#8, 0x7f#8]) ∧ Owes (looped ⟨1#8, 1#8, 1#8⟩ 8#6 [0xc7#8, 0x7f#8]) ∧
    8#6 ≠ 0#6 ∧ (8#6).toNat + 1 ≤ 9 - 0 ∧
    ∃ t, runEvent .encTurn (looped ⟨1#8, 1#8, 1#8⟩ 8#6 [0xc7#8, 0x7f#8]) = .next t ∧
      ReadsAppended (looped ⟨1#8, 1#8, 1#8⟩ 8#6 [0xc7#8, 0x7f#8]) t :=
  ⟨by unfold EncHas; decide, by decide, ⟨rfl, rfl⟩, by unfold Owes; decide, by decide, by decide, _, rfl, by
    unfold ReadsAppended; decide⟩

/-- DecodingAnEncodedImageReturnsIt: the empty image and one of two pixels. -/
theorem witness_image :
    ([] : List Pixel).length = (0#32).toNat * (7#32).toNat ∧
    [Pixel.black, ⟨1#8, 1#8, 1#8⟩].length = (2#32).toNat * (1#32).toNat := by decide

end Sys2Proof.Tests
end

section
/-! PROOFS. Pixels, one block per step, and the position of DEC. -/

namespace Sys2Proof.Machine

/-! Pixels as numbers -/

/-- Truncating the hash's sum to 8 bits first keeps its low six bits (R27). -/
theorem hash_eq_extract_sum (p : Pixel) : hash p = (3#8 * p.r + 5#8 * p.g + 7#8 * p.b).extractLsb' 0 6 := by
  apply BitVec.eq_of_toNat_eq
  rw [hash_toNat, BitVec.extractLsb'_toNat]
  simp only [BitVec.toNat_add, BitVec.toNat_mul, BitVec.toNat_ofNat, Nat.shiftRight_zero]
  omega

/-- Two channels differ by at most 255 either way. -/
theorem channel_sub_bounds (c d : Byte) : -255 ≤ (c.toNat : Int) - d.toNat ∧ (c.toNat : Int) - d.toNat ≤ 255 := by
  have := c.isLt
  have := d.isLt
  omega

/-- The 24-bit form of a pixel as a number (R20). -/
theorem packPixel_toNat (p : Pixel) :
    (packPixel p).toNat = p.r.toNat * 2 ^ 16 + p.g.toNat * 2 ^ 8 + p.b.toNat := by
  have := p.g.isLt
  have := p.b.isLt
  simp only [packPixel, BitVec.toNat_append]
  rw [← Nat.shiftLeft_add_eq_or_of_lt (by omega), ← Nat.shiftLeft_add_eq_or_of_lt (by omega)]
  simp only [Nat.shiftLeft_eq]
  omega

/-- Each channel of an unpacked pixel as a number. -/
theorem unpackPixel_toNat (v : BitVec 24) :
    (unpackPixel v).r.toNat = v.toNat / 2 ^ 16 % 2 ^ 8 ∧ (unpackPixel v).g.toNat = v.toNat / 2 ^ 8 % 2 ^ 8 ∧
    (unpackPixel v).b.toNat = v.toNat % 2 ^ 8 := by
  simp [unpackPixel, Nat.shiftRight_eq_div_pow]

@[simp] theorem packPixel_unpackPixel (v : BitVec 24) : packPixel (unpackPixel v) = v := by
  apply BitVec.eq_of_toNat_eq
  have := v.isLt
  obtain ⟨hr, hg, hb⟩ := unpackPixel_toNat v
  rw [packPixel_toNat, hr, hg, hb]
  omega

theorem Pixel.eq_of_toNat_eq {p q : Pixel} (hr : p.r.toNat = q.r.toNat) (hg : p.g.toNat = q.g.toNat)
    (hb : p.b.toNat = q.b.toNat) : p = q := by
  cases p
  cases q
  exact congr (congr (congrArg Pixel.mk (BitVec.eq_of_toNat_eq hr)) (BitVec.eq_of_toNat_eq hg))
    (BitVec.eq_of_toNat_eq hb)

@[simp] theorem unpackPixel_packPixel (p : Pixel) : unpackPixel (packPixel p) = p := by
  have := p.r.isLt
  have := p.g.isLt
  have := p.b.isLt
  obtain ⟨hr, hg, hb⟩ := unpackPixel_toNat (packPixel p)
  rw [packPixel_toNat] at hr hg hb
  exact Pixel.eq_of_toNat_eq (by omega) (by omega) (by omega)

/-- Settles O1: the value of the key, and the truncation of the sum to 8 bits. -/
theorem hashIsTheWeightedSumModulo64 : Obligations.HashIsTheWeightedSumModulo64 :=
  fun p => ⟨hash_toNat p, hash_eq_extract_sum p⟩

/-- Settles O2: the differences are the integer ones, and each channel is below 256. -/
theorem pixelSubtractionDoesNotWrap : Obligations.PixelSubtractionDoesNotWrap :=
  fun p q => ⟨rfl, rfl, rfl, channel_sub_bounds p.r q.r, channel_sub_bounds p.g q.g, channel_sub_bounds p.b q.b⟩

/-- Settles O3: the packed number, and both inverses. -/
theorem pixelPacksInto24Bits : Obligations.PixelPacksInto24Bits :=
  fun p => ⟨packPixel_toNat p, unpackPixel_packPixel p, packPixel_unpackPixel⟩

/-! One block per step (O45) and the position of DEC (O35) -/

/-- Settles O45: a start command replaces its own block only, and a block's step leaves the other block alone. -/
theorem aStepChangesOneBlockAtMost : Obligations.AStepChangesOneBlockAtMost := by
  intro s t h
  rcases step_cases h with ⟨w, ht, px, -, -, rfl⟩ | ⟨bytes, -, -, rfl⟩ | ⟨-, -, he | hd | rfl⟩
  · exact .inr ⟨rfl, rfl, rfl⟩
  · exact .inl ⟨rfl, rfl, rfl⟩
  · obtain ⟨hdec, hpixOut, -, hinp⟩ := encStep_other he
    exact .inr ⟨hdec, hpixOut, hinp⟩
  · obtain ⟨henc, hout, hpixIn, -⟩ := decStep_other hd
    exact .inl ⟨henc, hout, hpixIn⟩
  · exact .inl ⟨rfl, rfl, rfl⟩

/-- The pixel-delivering opcodes are 1, 2 or 4 bytes long (R72). -/
theorem delivered_length {i : Instr} {q p : Pixel} {len : Nat} (h : Instr.delivered q i = some (p, len)) :
    len = 1 ∨ len = 2 ∨ len = 4 := by
  cases i with
  | rgb r g b => cases h; simp
  | diff fr fg fb => cases h; simp
  | luma fdg frg fbg => cases h; simp
  | _ => cases h

/-- An instruction moves `pc` past its own bytes, or leaves it where it faults (R36, R164). -/
theorem exec_pc {i : Instr} {s t : State} (h : exec i s = .next t) :
    ∃ n ∈ [0, 1, 2, 4, 10], t.dec.pc = s.dec.pc + n := by
  rcases exec_cases h with ⟨_, _, _, _, _, _, hpc, rfl⟩ |
    ⟨_, ⟨_, rfl⟩ | ⟨_, len, hlen, rfl⟩ | ⟨_, _, rfl⟩ | ⟨l, _, rfl⟩⟩
  · exact ⟨10, by simp, by simp [hpc]⟩
  · exact ⟨0, by simp, rfl⟩
  · exact ⟨len, by rcases delivered_length hlen with rfl | rfl | rfl <;> simp, rfl⟩
  · exact ⟨1, by simp, rfl⟩
  · exact ⟨1, by simp, by simp [(emitPixels_fields (min (runLength l) s.dec.owed) s.dec.prev s).1]⟩

/-- A step of DEC advances `pc` by 0, 1, 2, 4 or 10 (R36). -/
theorem decStep_pc {s t : State} (h : decStep s = .next t) :
    ∃ n ∈ [0, 1, 2, 4, 10], t.dec.pc = s.dec.pc + n := by
  rcases decStep_cases h with ⟨_, hpc, rfl⟩ | ⟨_, _, ⟨_, _, rfl⟩ | ⟨_, _, _, hx⟩⟩ | ⟨_, ⟨_, _, rfl⟩ | ⟨_, _, _, hx⟩⟩
  · rcases magicStep_cases s with ⟨_, _, e⟩ | ⟨_, _, e⟩ <;> rw [e]
    · exact ⟨4, by simp, by simp [hpc]⟩
    · exact ⟨0, by simp, rfl⟩
  · exact ⟨0, by simp, rfl⟩
  · exact exec_pc hx
  · exact ⟨0, by simp, rfl⟩
  · exact exec_pc hx

/-- Settles O35: only DEC's own steps move `pc`, and those by the length of a header part or an opcode. -/
theorem pcNeverMovesBackwards : Obligations.PcNeverMovesBackwards := by
  intro s t h hns
  rcases step_cases h with ⟨w, ht, px, -, -, rfl⟩ | ⟨bytes, hs, -, -⟩ | ⟨-, -, he | hd | rfl⟩
  · exact ⟨0, by simp, rfl⟩
  · exact absurd ⟨bytes, s.agenda.tail, List.eq_cons_of_mem_head? hs⟩ hns
  · exact ⟨0, by simp, congrArg Dec.pc (encStep_other he).1⟩
  · exact decStep_pc (s := s.taken) hd
  · exact ⟨0, by simp, rfl⟩

end Sys2Proof.Machine
end

section
/-! PROOFS. The invariant of a step boundary. -/

namespace Sys2Proof.Machine

/-! The encoder's half of the invariant (O42) -/

/-- While a pixel is still to come, counting one does not wrap. -/
theorem inCount_succ {e : Enc} (h : e.inCount.toNat < e.nTotal.toNat) :
    (e.inCount + 1#64).toNat = e.inCount.toNat + 1 :=
  BitVec.toNat_add_of_lt (lt_of_le_of_lt h e.nTotal.isLt)

/-- A run of at most 61 pixels grows by one without wrapping (R25). -/
theorem run_succ {e : Enc} (h : e.run.toNat ≤ 61) : (e.run + 1#6).toNat = e.run.toNat + 1 :=
  BitVec.toNat_add_of_lt (lt_of_le_of_lt (Nat.succ_le_succ h) (by decide))

/-- ENC as its start command leaves it (R200). -/
theorem encInv_started (w h : Dim) : EncInv (Enc.started w h) [] where
  run_le := by simp [Enc.started, Enc.powerOn]
  total := pixelTotal_toNat w h
  count_le := by simp [Enc.started, Enc.powerOn]
  fresh := fun _ => ⟨rfl, rfl, rfl⟩
  pixels := fun hp => by cases hp
  done := fun hp => by cases hp
  out_covers := rfl

/-- ENC behind its header, in the phase the count decides (R100, R134). -/
theorem encInv_of_counted {e : Enc} {out : Memory Byte}
    (hphase : e.phase = if e.inCount = e.nTotal then .done else .pixels) (hrun : e.run.toNat ≤ 61)
    (htotal : e.nTotal.toNat = e.width.toNat * e.height.toNat) (hle : e.inCount.toNat ≤ e.nTotal.toNat)
    (hlast : e.inCount = e.nTotal → e.run = 0#6) (hcov : out.covers e.outLen) : EncInv e out := by
  have hcases : (e.phase = .done ∧ e.inCount = e.nTotal) ∨
      (e.phase = .pixels ∧ e.inCount.toNat < e.nTotal.toNat) := by
    split at hphase
    · next hc => exact .inl ⟨hphase, hc⟩
    · next hc => exact .inr ⟨hphase, lt_of_le_of_ne hle (BitVec.toNat_ne.mp hc)⟩
  exact {
    run_le := hrun
    total := htotal
    count_le := hle
    fresh := fun h => by rcases h with h | h <;> simp [h] at hcases
    pixels := fun h => by simpa [h] using hcases
    done := fun h => by
      have hc : e.inCount = e.nTotal := by simpa [h] using hcases
      exact ⟨hc, hlast hc⟩
    out_covers := hcov }

/-- The header step brings OUT to its fourteen bytes (R100). -/
theorem encInv_encHeaderStep {s : State} (hi : EncInv s.enc s.out) (hp : s.enc.phase = .header) :
    EncInv (encHeaderStep s).enc (encHeaderStep s).out := by
  obtain ⟨hin, hlen, hrun⟩ := hi.fresh (.inr hp)
  have hphase : (encHeaderStep s).enc.phase = if s.enc.inCount = s.enc.nTotal then .done else .pixels := by
    simp only [hin, eq_comm (a := 0#64)]
    rfl
  have hcov := hi.out_covers
  rw [hlen] at hcov
  exact encInv_of_counted hphase hi.run_le hi.total hi.count_le (fun _ => hrun) (Memory.covers_writeList _ hcov)

/-- The end of a pixel step (R133, R134): what the step's branch has to leave for the invariant to hold after it. -/
theorem encInv_encFinish {s : State} (cur : Pixel) (hp : s.enc.phase = .pixels)
    (htotal : s.enc.nTotal.toNat = s.enc.width.toNat * s.enc.height.toNat)
    (hcount : s.enc.inCount.toNat < s.enc.nTotal.toNat) (hrun : s.enc.run.toNat ≤ 61)
    (hlast : s.enc.inCount.toNat + 1 = s.enc.nTotal.toNat → s.enc.run = 0#6) (hout : s.out.covers s.enc.outLen) :
    EncInv (encFinish cur s).enc (encFinish cur s).out := by
  have hsucc := inCount_succ hcount
  refine encInv_of_counted (by rw [encFinish_enc, hp]) hrun htotal (hsucc ▸ hcount) (fun h => hlast ?_) hout
  rw [← hsucc]
  exact congrArg BitVec.toNat h

/-- The pixel step keeps ENC's half of the invariant: the run that grows stays below 62, and none is pending after the
last pixel (R122 to R126). -/
theorem encInv_encPixelStep {s : State} (cur : Pixel) (hi : EncInv s.enc s.out) (hp : s.enc.phase = .pixels) :
    EncInv (encPixelStep cur s).enc (encPixelStep cur s).out := by
  have hcount := hi.pixels hp
  by_cases hc : cur = s.enc.prev
  · subst hc
    rw [encPixelStep_run]
    split
    · exact encInv_encFinish _ hp hi.total hcount (Nat.zero_le _) (fun _ => rfl) (Memory.covers_write hi.out_covers _)
    · next hno =>
      obtain ⟨h62, hlast⟩ := not_or.mp hno
      refine encInv_encFinish _ hp hi.total hcount ?_ (fun h => absurd ?_ hlast) hi.out_covers
      · have hle := hi.run_le
        have hsucc := run_succ hle
        have hne : (s.enc.run + 1#6).toNat ≠ 62 := BitVec.toNat_ne.mp h62
        dsimp only
        omega
      · simpa [Enc.atLast] using h
  · rw [encPixelStep_other hc]
    exact encInv_encFinish _ hp hi.total hcount (Nat.zero_le _) (fun _ => rfl)
      (Memory.covers_writeList _ hi.out_covers)

/-- ENC's step keeps ENC's half of the invariant. -/
theorem encStep_encInv {s t : State} (h : encStep s = .next t) (hi : EncInv s.enc s.out) : EncInv t.enc t.out := by
  rcases encStep_cases h with ⟨hp, rfl⟩ | ⟨hp, cur, -, rfl⟩
  · exact encInv_encHeaderStep hi hp
  · exact encInv_encPixelStep cur hi hp

/-! The decoder's half of the invariant (O42) -/

/-- DEC as its start command leaves it (R200). -/
theorem decInv_started : DecInv Dec.started [] := by constructor <;> decide

/-- Outside FAULT the fault registers are 0 (R42). -/
theorem DecInv.no_fault {d : Dec} {m : Memory Pixel} (hi : DecInv d m) (hp : d.phase ≠ .fault) :
    d.cause = .none ∧ d.faultPc = 0 ∧ d.faultByte = 0#8 := by
  have hcause : d.cause = .none := by
    by_contra hc
    exact hp (hi.fault_cause.mpr hc)
  exact ⟨hcause, by simpa [hp] using hi.fault_pc, by simpa [hcause] using hi.fault_byte⟩

/-- Fault entry, of a FormatError at offset 0 before any pixel only (R181, R189). -/
theorem decInv_takeFault {s : State} {c : Cause} (hi : DecInv s.dec s.pixOut) (hc : c ≠ .none)
    (hf : c = .formatError → s.dec.outCount = 0#64 ∧ s.dec.pc = 0) :
    DecInv (takeFault c s).dec (takeFault c s).pixOut where
  run_zero := hi.run_zero
  total := hi.total
  count_le := hi.count_le
  header_pc := fun h => by cases h
  fresh := fun h => by simp at h
  opcodes := fun h => by cases h
  done := fun h => by cases h
  fault_cause := by simp [hc]
  fault_pc := rfl
  fault_byte := rfl
  format_error := hf
  out_covers := hi.out_covers
  prev_last := hi.prev_last

/-- A unit cut short or a reserved byte may fault anywhere. -/
theorem decInv_takeFault_of_ne {s : State} {c : Cause} (hi : DecInv s.dec s.pixOut) (hc : c ≠ .none)
    (hf : c ≠ .formatError) : DecInv (takeFault c s).dec (takeFault c s).pixOut :=
  decInv_takeFault hi hc fun h => absurd h hf

/-- The magic step (R102): to the second header part, or a fault at offset 0. -/
theorem decInv_magicStep {s : State} (hi : DecInv s.dec s.pixOut) (hp : s.dec.phase = .header) (hpc : s.dec.pc = 0) :
    DecInv (magicStep s).dec (magicStep s).pixOut := by
  obtain ⟨hcause, hfpc, -⟩ := hi.no_fault (by simp [hp])
  rcases magicStep_cases s with ⟨_, _, e⟩ | ⟨err, _, e⟩ <;> rw [e]
  · exact {
      hi with
      header_pc := fun _ => .inr rfl
      opcodes := fun h => by simp [hp] at h
      fault_pc := by simpa [hp] using hfpc
      format_error := fun h => by simp [hcause] at h }
  · exact decInv_takeFault hi (by cases err <;> simp [faultOf]) fun _ => ⟨hi.fresh (.inr hp), hpc⟩

/-- DEC behind its header, in the phase the count decides (R103, R151), with no fault recorded. -/
theorem decInv_of_counted {d : Dec} {m : Memory Pixel}
    (hphase : d.phase = if d.outCount = d.nTotal then .done else .opcodes) (hrun : d.run = 0#6)
    (htotal : d.nTotal.toNat = d.width.toNat * d.height.toNat) (hle : d.outCount.toNat ≤ d.nTotal.toNat)
    (hpc : 14 ≤ d.pc) (hcause : d.cause = .none) (hfpc : d.faultPc = 0) (hfbyte : d.faultByte = 0#8)
    (hcov : m.covers d.outCount.toNat)
    (hlast : (d.outCount = 0#64 ∧ d.prev = Pixel.black) ∨
      (0 < d.outCount.toNat ∧ m.read (d.outCount.toNat - 1) = some d.prev)) : DecInv d m := by
  have hcases : (d.phase = .done ∧ d.outCount = d.nTotal) ∨
      (d.phase = .opcodes ∧ d.outCount.toNat < d.nTotal.toNat) := by
    split at hphase
    · next hc => exact .inl ⟨hphase, hc⟩
    · next hc => exact .inr ⟨hphase, lt_of_le_of_ne hle (BitVec.toNat_ne.mp hc)⟩
  exact {
    run_zero := hrun
    total := htotal
    count_le := hle
    header_pc := fun h => by simp [h] at hcases
    fresh := fun h => by rcases h with h | h <;> simp [h] at hcases
    opcodes := fun h => ⟨by simpa [h] using hcases, hpc⟩
    done := fun h => by simpa [h] using hcases
    fault_cause := by rcases hcases with ⟨h, -⟩ | ⟨h, -⟩ <;> simp [h, hcause]
    fault_pc := by rcases hcases with ⟨h, -⟩ | ⟨h, -⟩ <;> simp [h, hfpc]
    fault_byte := by simp [hfbyte, hcause]
    format_error := fun h => by simp [hcause] at h
    out_covers := hcov
    prev_last := hlast }

/-- The dimensions step (R103): nothing is emitted yet, so the new total decides between DONE and OPCODES. -/
theorem decInv_header {s : State} (w h : Dim) (ch cs : Byte) (hi : DecInv s.dec s.pixOut)
    (hp : s.dec.phase = .header) :
    DecInv { s.dec with
        width := w, height := h, channels := ch, colorspace := cs, nTotal := pixelTotal w h, pc := 14,
        phase := if pixelTotal w h = 0#64 then .done else .opcodes } s.pixOut := by
  have hzero := hi.fresh (.inr hp)
  obtain ⟨hcause, hfpc, hfbyte⟩ := hi.no_fault (by simp [hp])
  exact decInv_of_counted (by simp only [hzero, eq_comm]) hi.run_zero (pixelTotal_toNat w h) (by simp [hzero])
    (le_refl 14) hcause hfpc hfbyte hi.out_covers hi.prev_last

/-- The end of an opcode step (R150, R151) whose body has emitted pixels, the last of them `p`, no more than are owed. -/
theorem decInv_finishOpcode {s u : State} {n : Nat} {p : Pixel} {c : Count} {k : Cache} (len : Nat)
    (hi : DecInv s.dec s.pixOut) (hp : s.dec.phase = .opcodes)
    (hu : u.dec = { s.dec with outCount := c, prev := p, cache := k }) (hn : 0 < n)
    (hc : c.toNat = s.dec.outCount.toNat + n) (hle : c.toNat ≤ s.dec.nTotal.toNat) (hcov : u.pixOut.covers c.toNat)
    (hlast : u.pixOut.read (c.toNat - 1) = some p) :
    DecInv (finishOpcode len u).dec (finishOpcode len u).pixOut := by
  obtain ⟨hcause, hfpc, hfbyte⟩ := hi.no_fault (by simp [hp])
  have hpc := (hi.opcodes hp).2
  rw [finishOpcode_dec, finishOpcode_pixOut, hu]
  exact decInv_of_counted (by simp only [hp]) hi.run_zero hi.total hle (by dsimp only; omega) hcause hfpc hfbyte hcov
    (.inr ⟨by dsimp only; omega, hlast⟩)

/-- An opcode whose body writes one pixel at `out_count`. -/
theorem decInv_finishOpcode_one {s u : State} {p : Pixel} {k : Cache} (len : Nat)
    (hi : DecInv s.dec s.pixOut) (hp : s.dec.phase = .opcodes)
    (hu : u.dec = { s.dec with outCount := s.dec.outCount + 1#64, prev := p, cache := k })
    (ho : u.pixOut = s.pixOut.write s.dec.outCount.toNat p) :
    DecInv (finishOpcode len u).dec (finishOpcode len u).pixOut := by
  have hlt := (hi.opcodes hp).1
  have hc := outCount_succ ⟨hp, hlt⟩
  refine decInv_finishOpcode len hi hp hu Nat.one_pos hc (by omega) ?_ ?_ <;> rw [ho, hc]
  · exact Memory.covers_write hi.out_covers p
  · exact Memory.read_write_same _ _ _

/-- RUN emits at least one pixel, and no more than are owed (R154). -/
theorem decInv_run {s : State} (len1 : BitVec 6) (hi : DecInv s.dec s.pixOut) (hp : s.dec.phase = .opcodes) :
    DecInv (finishOpcode 1 (emitPixels (min (runLength len1) s.dec.owed) s.dec.prev s)).dec
      (finishOpcode 1 (emitPixels (min (runLength len1) s.dec.owed) s.dec.prev s)).pixOut := by
  have hlt := (hi.opcodes hp).1
  have htotal := s.dec.nTotal.isLt
  have hpos : 0 < min (runLength len1) s.dec.owed := by simp only [runLength, Dec.owed]; omega
  have howed : min (runLength len1) s.dec.owed ≤ s.dec.nTotal.toNat - s.dec.outCount.toNat := min_le_right _ _
  generalize min (runLength len1) s.dec.owed = n at hpos howed
  have hc : (s.dec.outCount + BitVec.ofNat 64 n).toNat = s.dec.outCount.toNat + n := by
    rw [BitVec.toNat_add, BitVec.toNat_ofNat]
    omega
  have hd := (emitPixels_fields n s.dec.prev s).1
  refine decInv_finishOpcode 1 hi hp hd hpos hc (by omega) ?_ ?_ <;> rw [hc]
  · exact emitPixels_covers n _ s (by omega) hi.out_covers
  · rw [emitPixels_read n _ s _ (by omega), if_pos (by omega)]

/-- An instruction keeps DEC's half of the invariant. -/
theorem exec_decInv {i : Instr} {s t : State} (h : exec i s = .next t) (hi : DecInv s.dec s.pixOut) :
    DecInv t.dec t.pixOut := by
  rcases exec_cases h with ⟨w, ht, ch, cs, _, hp, _, rfl⟩ |
    ⟨hp, ⟨_, rfl⟩ | ⟨p, len, _, rfl⟩ | ⟨key, _, rfl⟩ | ⟨len1, _, rfl⟩⟩
  · exact decInv_header w ht ch cs hi hp
  · exact decInv_takeFault_of_ne hi (by simp) (by simp)
  · exact decInv_finishOpcode_one len hi hp (deliverPixel_dec s p) rfl
  · exact decInv_finishOpcode_one 1 hi hp (showPixel_dec s _) rfl
  · exact decInv_run len1 hi hp

/-- DEC's step keeps DEC's half of the invariant. -/
theorem decStep_decInv {s t : State} (h : decStep s = .next t) (hi : DecInv s.dec s.pixOut) :
    DecInv t.dec t.pixOut := by
  rcases decStep_cases h with ⟨hp, hpc, rfl⟩ | ⟨_, _, ⟨_, he, rfl⟩ | ⟨_, _, _, hx⟩⟩ | ⟨_, ⟨_, he, rfl⟩ | ⟨_, _, _, hx⟩⟩
  · exact decInv_magicStep hi hp hpc
  · rw [decodeDims_error he]
    exact decInv_takeFault_of_ne hi (by simp [faultOf]) (by simp [faultOf])
  · exact exec_decInv hx hi
  · rw [decodeOpcode_error he]
    exact decInv_takeFault_of_ne hi (by simp [faultOf]) (by simp [faultOf])
  · exact exec_decInv hx hi

/-- Settles O42: a start command leaves a fresh block, and a block's step keeps its own half of the invariant and leaves
the other half and both inputs alone. -/
theorem everyStepKeepsTheInvariant : Obligations.EveryStepKeepsTheInvariant := by
  intro s t hi h
  rcases step_cases h with ⟨w, ht, px, -, -, rfl⟩ | ⟨bytes, -, -, rfl⟩ | ⟨-, -, he | hd | rfl⟩
  · exact ⟨encInv_started w ht, hi.dec, Memory.dense_ofList px, hi.inp_dense⟩
  · exact ⟨hi.enc, decInv_started, hi.pixIn_dense, Memory.dense_ofList bytes⟩
  · obtain ⟨hdec, hpixOut, hpixIn, hinp⟩ := encStep_other he
    refine ⟨encStep_encInv he hi.enc, ?_, ?_, ?_⟩
    · rw [hdec, hpixOut]; exact hi.dec
    · rw [hpixIn]; exact hi.pixIn_dense
    · rw [hinp]; exact hi.inp_dense
  · obtain ⟨henc, hout, hpixIn, hinp⟩ := decStep_other hd
    refine ⟨?_, decStep_decInv hd hi.dec, ?_, ?_⟩
    · rw [henc, hout]; exact hi.enc
    · rw [hpixIn]; exact hi.pixIn_dense
    · rw [hinp]; exact hi.inp_dense
  · exact ⟨hi.enc, hi.dec, hi.pixIn_dense, hi.inp_dense⟩

end Sys2Proof.Machine
end

section
/-! PROOFS. The lockstep of the two blocks. -/

namespace Sys2Proof.Machine

/-! An opcode read back from its bytes (R80) -/

/-- The first byte of INDEX: no exact code, tag 00, and the key below it (R73). -/
theorem index_byte (key : BitVec 6) : 0b00#2 ++ key ≠ 0xfe#8 ∧ 0b00#2 ++ key ≠ 0xff#8 ∧
    (0b00#2 ++ key) &&& 0xc0#8 = 0x00#8 ∧ BitVec.extractLsb' 0 6 (0b00#2 ++ key) = key := by
  revert key; decide

/-- The byte of DIFF: no exact code, tag 01, and the three fields in their places (R74). -/
theorem diff_byte (fr fg fb : BitVec 2) :
    0b01#2 ++ fr ++ fg ++ fb ≠ 0xfe#8 ∧ 0b01#2 ++ fr ++ fg ++ fb ≠ 0xff#8 ∧
    (0b01#2 ++ fr ++ fg ++ fb) &&& 0xc0#8 = 0x40#8 ∧ BitVec.extractLsb' 4 2 (0b01#2 ++ fr ++ fg ++ fb) = fr ∧
    BitVec.extractLsb' 2 2 (0b01#2 ++ fr ++ fg ++ fb) = fg ∧
    BitVec.extractLsb' 0 2 (0b01#2 ++ fr ++ fg ++ fb) = fb := by
  revert fr fg fb; decide

/-- The first byte of LUMA: no exact code, tag 10, and the green field below it (R75). -/
theorem luma_byte (fdg : BitVec 6) : 0b10#2 ++ fdg ≠ 0xfe#8 ∧ 0b10#2 ++ fdg ≠ 0xff#8 ∧
    (0b10#2 ++ fdg) &&& 0xc0#8 = 0x80#8 ∧ BitVec.extractLsb' 0 6 (0b10#2 ++ fdg) = fdg := by
  revert fdg; decide

/-- The second byte of LUMA: the two fields in their places (R75). -/
theorem luma_byte2 (frg fbg : BitVec 4) :
    BitVec.extractLsb' 4 4 (frg ++ fbg) = frg ∧ BitVec.extractLsb' 0 4 (frg ++ fbg) = fbg := by
  revert frg fbg; decide

/-- The byte of a RUN of at most 62: no exact code, tag 11, and the length below it (R76). -/
theorem run_byte {len1 : BitVec 6} (h : len1.toNat < Config.runMax) :
    0b11#2 ++ len1 ≠ 0xfe#8 ∧ 0b11#2 ++ len1 ≠ 0xff#8 ∧ (0b11#2 ++ len1) &&& 0xc0#8 = 0xc0#8 ∧
    BitVec.extractLsb' 0 6 (0b11#2 ++ len1) = len1 := by
  revert len1; decide

/-- A well-formed opcode is read back from its encoding, whatever follows. -/
theorem decodeOpcode_encode {i : Instr} (rest : List Byte) (hop : i.isOpcode = true) (hwf : i.wellFormed = true) :
    decodeOpcode (encode i ++ rest) = .ok (i, rest) := by
  cases i with
  | rgb r g b => rfl
  | rgba => rfl
  | index key =>
    obtain ⟨hfe, hff, htag, hkey⟩ := index_byte key
    simp [encode, decodeOpcode, decodeFrom, hfe, hff, htag, hkey]
  | diff fr fg fb =>
    obtain ⟨hfe, hff, htag, hr, hg, hb⟩ := diff_byte fr fg fb
    simp [encode, decodeOpcode, decodeFrom, hfe, hff, htag, hr, hg, hb]
  | luma fdg frg fbg =>
    obtain ⟨hfe, hff, htag, hdg⟩ := luma_byte fdg
    obtain ⟨hrg, hbg⟩ := luma_byte2 frg fbg
    simp [encode, decodeOpcode, decodeFrom, hfe, hff, htag, hdg, hrg, hbg]
  | run len1 =>
    obtain ⟨hfe, hff, htag, hlen⟩ := run_byte (of_decide_eq_true hwf)
    simp [encode, decodeOpcode, decodeFrom, hfe, hff, htag, hlen]
  | header w h ch cs => cases hop

/-- An opcode has at most four bytes (R72). -/
theorem encode_length_le {i : Instr} (hop : i.isOpcode = true) : (encode i).length ≤ Config.maxOpcodeBytes := by
  cases i with
  | header w h ch cs => cases hop
  | _ => simp [encode, Config.maxOpcodeBytes]

/-- IN holds the bytes `bs` at `pc`. -/
def InpHasAtPc (s : State) (bs : List Byte) : Prop :=
  ∀ k, k < bs.length → s.inp.read (s.dec.pc + k) = bs[k]?

theorem InpHasAtPc.left {s : State} {xs ys : List Byte} (h : InpHasAtPc s (xs ++ ys)) : InpHasAtPc s xs := by
  intro k hk
  rw [h k (by rw [List.length_append]; omega), List.getElem?_append_left hk]

/-- After the first bytes are passed, the others are next. -/
theorem InpHasAtPc.right {s u : State} {xs ys : List Byte} (h : InpHasAtPc s (xs ++ ys)) (hinp : u.inp = s.inp)
    (hpc : u.dec.pc = s.dec.pc + xs.length) : InpHasAtPc u ys := by
  intro k hk
  rw [hinp, hpc, Nat.add_assoc, h _ (by rw [List.length_append]; omega),
    List.getElem?_append_right (Nat.le_add_right _ _), Nat.add_sub_cancel_left]

/-- DEC's turn executes the opcode whose bytes IN holds at `pc` (R150). -/
theorem decTurn_eq_exec {s : State} {i : Instr} (hp : s.dec.phase = .opcodes) (hop : i.isOpcode = true)
    (hwf : i.wellFormed = true) (hb : InpHasAtPc s (encode i)) : runEvent .decTurn s = exec i s := by
  obtain ⟨more, hmore⟩ := Memory.window_prefix s.inp (encode i) s.dec.pc _ (encode_length_le hop) hb
  have hready : s.dec.ready = true := by simp [Dec.ready, hp]
  simp only [runEvent, if_pos hready, decStep, hp, fetchOpcode, hmore, decodeOpcode_encode more hop hwf, execFetched]

/-! What a pixel step of ENC appends, and what it leaves for DEC to agree with -/

/-- With its pixel supplied, ENC's turn is the pixel step (R121). -/
theorem encTurn_eq_next {s : State} {cur : Pixel} (h : EncHas s cur) :
    runEvent .encTurn s = .next (encPixelStep cur s) := by
  obtain ⟨hp, hread, -, -⟩ := h
  simp [runEvent, State.encReady, encStep, hp, hread]

/-- A pixel that differs from `prev`: the pending run, if there is one, and the pixel's own opcode (R124, R126, R127). -/
theorem encTurn_other {s t : State} {cur : Pixel} (hs : EncHas s cur) (hne : cur ≠ s.enc.prev)
    (h : runEvent .encTurn s = .next t) :
    AppendsBytes s t (flushed s.enc ++ encode (chosen s.enc cur).1) ∧
    t.enc.prev = cur ∧ t.enc.cache = (chosen s.enc cur).2 ∧ t.dec = s.dec := by
  rw [encTurn_eq_next hs, encPixelStep_other hne] at h
  cases h
  exact ⟨appendsBytes_writeList _ rfl rfl, rfl, rfl, rfl⟩

/-- A pixel equal to `prev` whose step leaves no run pending has flushed it, the pixel included (R123). -/
theorem encTurn_run {s t : State} (hs : EncHas s s.enc.prev) (h : runEvent .encTurn s = .next t)
    (hzero : t.enc.run = 0#6) :
    AppendsBytes s t (encode (.run s.enc.run)) ∧ t.enc.prev = s.enc.prev ∧ t.enc.cache = s.enc.cache ∧
    t.dec = s.dec := by
  rw [encTurn_eq_next hs, encPixelStep_run] at h
  obtain ⟨-, -, -, hrun⟩ := hs
  split at h <;> cases h
  · exact ⟨appendsBytes_writeList _ rfl rfl, rfl, rfl, rfl⟩
  · have hsucc := run_succ hrun
    have hnat : (s.enc.run + 1#6).toNat = 0 := congrArg BitVec.toNat hzero
    omega

/-- DEC finds at `pc` what ENC has appended. -/
theorem inpHasAtPc_of_readsAppended {s t : State} {bs : List Byte} (hr : ReadsAppended s t) (ha : AppendsBytes s t bs)
    (hdec : t.dec = s.dec) : InpHasAtPc t bs := by
  obtain ⟨hout, hlen⟩ := ha
  intro k hk
  rw [hdec, hr k (by omega), hout, if_pos (by omega), Nat.add_sub_cancel_left]

/-- A RUN of a pending run is well-formed, and its field is one less than the run (R76, R125). -/
theorem run_pred {e : Enc} (hrun : e.run.toNat ≤ 61) (hne : e.run ≠ 0#6) :
    (e.run - 1#6).toNat + 1 = e.run.toNat ∧ (Instr.run (e.run - 1#6)).wellFormed = true := by
  have hpos : e.run.toNat ≠ 0 := BitVec.toNat_ne.mp hne
  have hsub : (e.run - 1#6).toNat = e.run.toNat - 1 :=
    BitVec.toNat_sub_of_le (BitVec.le_def.mpr (Nat.pos_of_ne_zero hpos))
  simp only [Instr.wellFormed, Config.runMax, hsub, decide_eq_true_eq]
  omega

/-! The three kinds of step that emit (R48) -/

/-- A pixel coded with no run pending. -/
theorem lockstep_coded {s t : State} {cur : Pixel} (hs : EncHas s cur) (hne : cur ≠ s.enc.prev)
    (hrun : s.enc.run = 0#6) (hl : Lockstep s) (ho : Owes s) (h : runEvent .encTurn s = .next t)
    (hr : ReadsAppended s t) :
    ∃ u, runEvent .decTurn t = .next u ∧ Lockstep u ∧ EmitsPixels t u cur 1 ∧
      u.dec.pc = s.dec.pc + (t.enc.outLen - s.enc.outLen) := by
  obtain ⟨ha, hprev, hcache, hdec⟩ := encTurn_other hs hne h
  have hflushed : flushed s.enc = [] := by simp [flushed, Enc.runPending, hrun]
  rw [hflushed, List.nil_append] at ha
  have hot : Owes t := by rwa [Owes, hdec]
  obtain ⟨u, hu, huprev, hucache, huenc, hemit, hpc⟩ :=
    exec_chosen (e := s.enc) (cur := cur) hot (by rw [hdec, hl.1]) (by rw [hdec, hl.2])
  obtain ⟨hwf, hop⟩ := chosen_wellFormed s.enc cur
  refine ⟨u, ?_, ⟨?_, ?_⟩, hemit, ?_⟩
  · rw [decTurn_eq_exec hot.1 hop hwf (inpHasAtPc_of_readsAppended hr ha hdec), hu]
  · rw [huenc, huprev, hprev]
  · rw [huenc, hucache, hcache]
  · rw [hpc, hdec, ha.2, Nat.add_sub_cancel_left]

/-- A pixel equal to `prev` whose step flushes the run. -/
theorem lockstep_flushed_run {s t : State} (hs : EncHas s s.enc.prev) (hl : Lockstep s) (ho : Owes s)
    (hle : s.enc.run.toNat + 1 ≤ s.dec.nTotal.toNat - s.dec.outCount.toNat) (h : runEvent .encTurn s = .next t)
    (hzero : t.enc.run = 0#6) (hr : ReadsAppended s t) :
    ∃ u, runEvent .decTurn t = .next u ∧ Lockstep u ∧ EmitsPixels t u s.enc.prev (s.enc.run.toNat + 1) ∧
      u.dec.pc = s.dec.pc + (t.enc.outLen - s.enc.outLen) := by
  obtain ⟨ha, hprev, hcache, hdec⟩ := encTurn_run hs h hzero
  obtain ⟨-, -, -, hrun⟩ := hs
  have hot : Owes t := by rwa [Owes, hdec]
  obtain ⟨u, hu, huprev, hucache, huenc, -, hemit, hpc, -⟩ := exec_run_unclipped s.enc.run hot (by rwa [hdec])
  have hwf : (Instr.run s.enc.run).wellFormed = true := decide_eq_true (Nat.lt_succ_of_le hrun)
  refine ⟨u, ?_, ⟨?_, ?_⟩, ?_, ?_⟩
  · rw [decTurn_eq_exec hot.1 rfl hwf (inpHasAtPc_of_readsAppended hr ha hdec), hu]
  · rw [huenc, huprev, hdec, hl.1, hprev]
  · rw [huenc, hucache, hdec, hl.2, hcache]
  · rwa [hdec, hl.1] at hemit
  · rw [hpc, hdec, ha.2, Nat.add_sub_cancel_left]
    rfl

/-- A pixel that differs from `prev` while a run is pending: DEC takes a turn for the RUN and one for the opcode. -/
theorem lockstep_pending_run {s t : State} {cur : Pixel} (hs : EncHas s cur) (hne : cur ≠ s.enc.prev)
    (hrun : s.enc.run ≠ 0#6) (hl : Lockstep s) (ho : Owes s)
    (hle : s.enc.run.toNat + 1 ≤ s.dec.nTotal.toNat - s.dec.outCount.toNat) (h : runEvent .encTurn s = .next t)
    (hr : ReadsAppended s t) :
    ∃ u v, runEvent .decTurn t = .next u ∧ EmitsPixels t u s.enc.prev s.enc.run.toNat ∧ u.dec.pc = s.dec.pc + 1 ∧
      runEvent .decTurn u = .next v ∧ EmitsPixels u v cur 1 ∧ Lockstep v ∧
      v.dec.pc = s.dec.pc + (t.enc.outLen - s.enc.outLen) := by
  obtain ⟨ha, hprev, hcache, hdec⟩ := encTurn_other hs hne h
  obtain ⟨-, -, -, hrun61⟩ := hs
  obtain ⟨hpred, hwfRun⟩ := run_pred hrun61 hrun
  have hflushed : flushed s.enc = encode (.run (s.enc.run - 1#6)) := by
    have : 0 < s.enc.run.toNat := by omega
    simp [flushed, Enc.runPending, encode, this]
  rw [hflushed] at ha
  have hbytes := inpHasAtPc_of_readsAppended hr ha hdec
  have hot : Owes t := by rwa [Owes, hdec]
  obtain ⟨u, hu, huprev, hucache, huenc, huinp, huemit, hupc, huowes⟩ :=
    exec_run_unclipped (s.enc.run - 1#6) hot (by rw [hdec]; omega)
  have hou : Owes u := huowes (by rw [hdec]; omega)
  obtain ⟨v, hv, hvprev, hvcache, hvenc, hvemit, hvpc⟩ :=
    exec_chosen (e := s.enc) (cur := cur) hou (by rw [huprev, hdec, hl.1]) (by rw [hucache, hdec, hl.2])
  obtain ⟨hwf, hop⟩ := chosen_wellFormed s.enc cur
  refine ⟨u, v, ?_, ?_, ?_, ?_, hvemit, ⟨?_, ?_⟩, ?_⟩
  · rw [decTurn_eq_exec hot.1 rfl hwfRun hbytes.left, hu]
  · rwa [hpred, hdec, hl.1] at huemit
  · rw [hupc, hdec]
  · rw [decTurn_eq_exec hou.1 hop hwf (hbytes.right huinp hupc), hv]
  · rw [hvenc, huenc, hvprev, hprev]
  · rw [hvenc, huenc, hvcache, hcache]
  · rw [hvpc, hupc, hdec, ha.2, List.length_append, Nat.add_sub_cancel_left, Nat.add_assoc]
    rfl

/-- Settles O47: DEC reads back the opcodes that each of the three kinds of step appends. -/
theorem lockstepIsKept : Obligations.LockstepIsKept :=
  ⟨fun _ _ _ => lockstep_coded, fun _ _ => lockstep_flushed_run, fun _ _ _ => lockstep_pending_run⟩

end Sys2Proof.Machine
end

section
/-! PROOFS. The four sequences over a step, and what drives the step. -/

namespace Sys2Proof.Machine

/-! Inputs (O43) -/

/-- The start command of DEC that `step_cases` finds at the head of the agenda. -/
theorem startsDecoder_of_head? {s : State} {bytes : List Byte} (h : s.agenda.head? = some (.decStart bytes)) :
    StartsDecoder s := ⟨bytes, s.agenda.tail, List.eq_cons_of_mem_head? h⟩

/-- The start command of ENC that `step_cases` finds at the head of the agenda. -/
theorem startsEncoder_of_head? {s : State} {w ht : Dim} {px : List Pixel}
    (h : s.agenda.head? = some (.encStart w ht px)) : StartsEncoder s :=
  ⟨w, ht, px, s.agenda.tail, List.eq_cons_of_mem_head? h⟩

/-- A block's step, or a turn that passes, leaves both inputs alone (R65). -/
theorem blockStep_inputs {s t : State} (h : encStep s.taken = .next t ∨ decStep s.taken = .next t ∨ t = s.taken) :
    t.inp = s.inp ∧ t.pixIn = s.pixIn := by
  rcases h with he | hd | rfl
  · obtain ⟨-, -, hpixIn, hinp⟩ := encStep_other he
    exact ⟨hinp, hpixIn⟩
  · obtain ⟨-, -, hpixIn, hinp⟩ := decStep_other hd
    exact ⟨hinp, hpixIn⟩
  · exact ⟨rfl, rfl⟩

/-- Settles O43: a start command presents the input of its own block, and a block's step leaves both inputs alone. -/
theorem inputsAreConstantWithinAnInvocation : Obligations.InputsAreConstantWithinAnInvocation := by
  intro s t h
  rcases step_cases h with ⟨w, ht, px, hs, -, rfl⟩ | ⟨bytes, hs, -, rfl⟩ | ⟨hnd, hne, hblock⟩
  · refine ⟨fun _ => rfl, fun hne => absurd (startsEncoder_of_head? hs) hne, ?_, ?_⟩
    · intro bs es ha
      simp [ha] at hs
    · intro w' ht' px' es ha i
      obtain ⟨-, -, rfl⟩ : w' = w ∧ ht' = ht ∧ px' = px := by simpa [ha] using hs
      exact Memory.read_ofList _ i
  · refine ⟨fun hnd => absurd (startsDecoder_of_head? hs) hnd, fun _ => rfl, ?_, ?_⟩
    · intro bs es ha i
      obtain rfl : bs = bytes := by simpa [ha] using hs
      exact Memory.read_ofList _ i
    · intro w ht px es ha
      simp [ha] at hs
  · obtain ⟨hinp, hpixIn⟩ := blockStep_inputs hblock
    exact ⟨fun _ => hinp, fun _ => hpixIn, fun bs es ha => absurd ⟨bs, es, ha⟩ hnd,
      fun w ht px es ha => absurd ⟨w, ht, px, es, ha⟩ hne⟩

/-! Outputs (O44) -/

/-- The sequence `m'` with `n'` elements emitted is `m` with `n` emitted and perhaps more: no count falls, and what was
emitted reads as before (R53). -/
def Memory.Extends {α : Type} (m : Memory α) (n : Nat) (m' : Memory α) (n' : Nat) : Prop :=
  n ≤ n' ∧ ∀ a, a < n → m'.read a = m.read a

theorem Memory.Extends.refl {α : Type} (m : Memory α) (n : Nat) : m.Extends n m n := ⟨le_refl n, fun _ _ => rfl⟩

/-- Appending bytes to OUT extends it. -/
theorem AppendsBytes.extends {s t : State} {bs : List Byte} (h : AppendsBytes s t bs) :
    s.out.Extends s.enc.outLen t.out t.enc.outLen := by
  obtain ⟨hread, hlen⟩ := h
  exact ⟨by omega, fun a ha => by rw [hread, if_neg (by omega)]⟩

/-- Emitting pixels extends PIX_OUT. -/
theorem EmitsPixels.extends {s t : State} {p : Pixel} {n : Nat} (h : EmitsPixels s t p n) :
    s.pixOut.Extends s.dec.outCount.toNat t.pixOut t.dec.outCount.toNat := by
  obtain ⟨hread, hcount⟩ := h
  exact ⟨by omega, fun a ha => by rw [hread, if_neg (by omega)]⟩

/-- Every pixel step appends the bytes it emits (R122 to R127). -/
theorem encPixelStep_appendsBytes (cur : Pixel) (s : State) : ∃ bs, AppendsBytes s (encPixelStep cur s) bs := by
  by_cases hc : cur = s.enc.prev
  · subst hc
    rw [encPixelStep_run]
    split
    · exact ⟨[0b11#2 ++ s.enc.run], appendsBytes_writeList _ rfl rfl⟩
    · exact ⟨[], appendsBytes_writeList _ rfl rfl⟩
  · rw [encPixelStep_other hc]
    exact ⟨_, appendsBytes_writeList _ rfl rfl⟩

/-- ENC's step extends OUT: the header is the first it emits, and a pixel step appends. -/
theorem encStep_extends {s t : State} (h : encStep s = .next t) (hi : EncInv s.enc s.out) :
    s.out.Extends s.enc.outLen t.out t.enc.outLen := by
  rcases encStep_cases h with ⟨hp, rfl⟩ | ⟨-, cur, -, rfl⟩
  · obtain ⟨-, hlen, -⟩ := hi.fresh (.inr hp)
    rw [hlen]
    exact ⟨Nat.zero_le _, fun a ha => absurd ha (Nat.not_lt_zero a)⟩
  · obtain ⟨bs, happ⟩ := encPixelStep_appendsBytes cur s
    exact happ.extends

/-- Emitting no more pixels than are owed counts them without wrapping, and the end of the step emits none (R154). -/
theorem emitsPixels_finish_emitPixels {s : State} {n : Nat} (len : Nat) (p : Pixel) (hn : n ≤ s.dec.owed)
    (ho : Owes s) : EmitsPixels s (finishOpcode len (emitPixels n p s)) p n := by
  have hlt := ho.2
  have htotal := s.dec.nTotal.isLt
  have hb : s.dec.outCount.toNat + n < 2 ^ 64 := by
    simp only [Dec.owed] at hn
    omega
  refine ⟨fun a => emitPixels_read n p s a hb, ?_⟩
  rw [finishOpcode_dec, (emitPixels_fields n p s).1]
  simp only [BitVec.toNat_add, BitVec.toNat_ofNat]
  omega

/-- An instruction extends PIX_OUT: HEADER and RGBA emit nothing, every other opcode emits at `out_count`. -/
theorem exec_extends {i : Instr} {s t : State} (h : exec i s = .next t) (hi : DecInv s.dec s.pixOut) :
    s.pixOut.Extends s.dec.outCount.toNat t.pixOut t.dec.outCount.toNat := by
  rcases exec_cases h with ⟨_, _, _, _, _, _, _, rfl⟩ | ⟨hp, hop⟩
  · exact .refl _ _
  · have ho : Owes s := ⟨hp, (hi.opcodes hp).1⟩
    rcases hop with ⟨_, rfl⟩ | ⟨p, len, _, rfl⟩ | ⟨key, _, rfl⟩ | ⟨len1, _, rfl⟩
    · exact .refl _ _
    · exact (emitsPixels_one ho rfl rfl).extends
    · exact (emitsPixels_one ho rfl rfl).extends
    · exact (emitsPixels_finish_emitPixels 1 s.dec.prev (min_le_right _ _) ho).extends

/-- DEC's step extends PIX_OUT: a fault and the magic step emit nothing. -/
theorem decStep_extends {s t : State} (h : decStep s = .next t) (hi : DecInv s.dec s.pixOut) :
    s.pixOut.Extends s.dec.outCount.toNat t.pixOut t.dec.outCount.toNat := by
  rcases decStep_cases h with ⟨_, _, rfl⟩ | ⟨_, _, ⟨_, _, rfl⟩ | ⟨_, _, _, hx⟩⟩ | ⟨_, ⟨_, _, rfl⟩ | ⟨_, _, _, hx⟩⟩
  · rcases magicStep_cases s with ⟨_, _, e⟩ | ⟨_, _, e⟩ <;> rw [e] <;> exact .refl _ _
  · exact .refl _ _
  · exact exec_extends hx hi
  · exact .refl _ _
  · exact exec_extends hx hi

/-- Settles O44: a block's step extends its own output and leaves the other's alone, and a start command empties the
output of its own block only. -/
theorem outputsAreAppendOnly : Obligations.OutputsAreAppendOnly := by
  intro s t hi h
  have hsameOut := Memory.Extends.refl s.out s.enc.outLen
  have hsamePix := Memory.Extends.refl s.pixOut s.dec.outCount.toNat
  rcases step_cases h with ⟨w, ht, px, hs, -, rfl⟩ | ⟨bytes, hs, -, rfl⟩ | ⟨-, -, he | hd | rfl⟩
  · exact ⟨fun hne => absurd (startsEncoder_of_head? hs) hne, fun _ => hsamePix⟩
  · exact ⟨fun _ => hsameOut, fun hnd => absurd (startsDecoder_of_head? hs) hnd⟩
  · obtain ⟨hdec, hpixOut, -, -⟩ := encStep_other he
    rw [hdec, hpixOut]
    exact ⟨fun _ => encStep_extends (s := s.taken) he hi.enc, fun _ => hsamePix⟩
  · obtain ⟨henc, hout, -, -⟩ := decStep_other hd
    rw [henc, hout]
    exact ⟨fun _ => hsameOut, fun _ => decStep_extends (s := s.taken) hd hi.dec⟩
  · exact ⟨fun _ => hsameOut, fun _ => hsamePix⟩

/-! What drives the step (O17) -/

/-- With an event on the agenda, the step takes it off and runs it (log 2). -/
theorem step_of_cons {s : State} {e : Event} {es : List Event} (h : s.agenda = e :: es) :
    step s = runEvent e { s with agenda := es } := by simp [step, h]

/-- With none, a block moves by itself (log 4). -/
theorem step_of_nil {s : State} (h : s.agenda = []) : step s = restStep s := by simp [step, h]

/-- The turn of a DEC that has a step is that step; any other passes (log 3). -/
theorem runEvent_decTurn (s : State) : runEvent .decTurn s = if s.dec.ready then decStep s else .next s := rfl

/-- The turn of an ENC that has a step is that step; any other passes (log 3). -/
theorem runEvent_encTurn (s : State) : runEvent .encTurn s = if s.encReady then encStep s else .next s := rfl

/-- DEC in IDLE, DONE or FAULT has no step (R165). -/
theorem Dec.ready_eq_false {d : Dec} (h : d.phase = .idle ∨ d.phase = .done ∨ d.phase = .fault) :
    d.ready = false := by
  rcases h with h | h | h <;> simp [Dec.ready, h]

/-- ENC in IDLE or DONE has no step (R120). -/
theorem State.encReady_eq_false {s : State} (h : s.enc.phase = .idle ∨ s.enc.phase = .done) :
    s.encReady = false := by
  rcases h with h | h <;> simp [State.encReady, h]

/-- When both blocks are at rest, that is why none can move (log 7). -/
theorem restReason_eq_atRest {s : State} (hd : s.dec.phase = .idle ∨ s.dec.phase = .done ∨ s.dec.phase = .fault)
    (he : s.enc.phase = .idle ∨ s.enc.phase = .done) : restReason s = .atRest := by
  rcases he with he | he <;> rcases hd with hd | hd | hd <;> simp [restReason, he, hd]

/-- Settles O17: an event runs, DEC moves before ENC, a turn without a step passes, and two blocks at rest stop. -/
theorem agendaDrivesTheStep : Obligations.AgendaDrivesTheStep := by
  refine ⟨fun s e es => step_of_cons, ?_, ?_, ?_, ?_, ?_⟩
  · intro s ha hd
    rw [step_of_nil ha, restStep, runEvent_decTurn, if_pos hd, if_pos hd]
  · intro s ha hd he
    simp only [step_of_nil ha, restStep, runEvent_encTurn, hd, he, if_true, Bool.false_eq_true, if_false]
  · intro s hd
    simp [runEvent_decTurn, hd]
  · intro s he
    simp [runEvent_encTurn, he]
  · intro s ha hd he
    simp [step_of_nil ha, restStep, Dec.ready_eq_false hd, State.encReady_eq_false he, restReason_eq_atRest hd he]

end Sys2Proof.Machine
end

section
/-! PROOFS. The encoding: fields, first bytes, the header record and the assembler. -/

namespace Sys2Proof.Machine

/-! Biased fields (O5) -/

/-- The field of a delta in range holds the delta plus the bias (R84). -/
theorem biased_toNat {n : Nat} {bias d : Int} (h0 : 0 ≤ d + bias) (h1 : d + bias < 2 ^ n) :
    ((biased n bias d).toNat : Int) = d + bias := by
  have h := unbias_biased h0 h1
  rw [unbias] at h
  omega

/-- The field of a delta in range holds the delta plus the bias, and gives the delta back (R84). -/
theorem biased_field {n : Nat} {bias d : Int} (h0 : 0 ≤ d + bias) (h1 : d + bias < 2 ^ n) :
    ((biased n bias d).toNat : Int) = d + bias ∧ unbias bias (biased n bias d) = d :=
  ⟨biased_toNat h0 h1, unbias_biased h0 h1⟩

/-- A field of `n` bits gives deltas in `[-bias, 2 ^ n - bias)` (R84). -/
theorem unbias_bounds {n : Nat} (bias : Int) (f : BitVec n) : -bias ≤ unbias bias f ∧ unbias bias f < 2 ^ n - bias := by
  have : (f.toNat : Int) < 2 ^ n := by exact_mod_cast f.isLt
  rw [unbias]
  omega

/-- Every field value of DIFF gives deltas in range (R84, R129). -/
theorem inDiffBox_diffDelta (fr fg fb : BitVec 2) : InDiffBox (diffDelta fr fg fb) := by
  have := unbias_bounds 2 fr; have := unbias_bounds 2 fg; have := unbias_bounds 2 fb
  simp only [InDiffBox, diffDelta]
  omega

/-- Every field value of LUMA gives a green delta and differences in range (R84, R129). -/
theorem inLumaBox_lumaDelta (fdg : BitVec 6) (frg fbg : BitVec 4) : InLumaBox (lumaDelta fdg frg fbg) := by
  have := unbias_bounds 32 fdg; have := unbias_bounds 8 frg; have := unbias_bounds 8 fbg
  simp only [InLumaBox, lumaDelta]
  omega

/-- In LUMA's box the red and blue deltas are in [-40, 38] (R84). -/
theorem InLumaBox.bounds {d : Delta} (h : InLumaBox d) : (-40 ≤ d.r ∧ d.r ≤ 38) ∧ (-40 ≤ d.b ∧ d.b ≤ 38) := by
  rw [InLumaBox] at h
  omega

/-- Settles O5: the fields hold the deltas of their ranges, and every field value gives deltas in range. -/
theorem biasedFieldsHoldTheirDeltas : Obligations.BiasedFieldsHoldTheirDeltas :=
  ⟨fun _ _ _ => biased_field (by omega) (by omega), fun _ _ _ => biased_field (by omega) (by omega),
    fun _ _ _ => biased_field (by omega) (by omega),
    fun fr fg fb => ⟨rfl, rfl, rfl, inDiffBox_diffDelta fr fg fb⟩,
    fun fdg frg fbg => have hbox := inLumaBox_lumaDelta fdg frg fbg; ⟨rfl, rfl, rfl, hbox, hbox.bounds⟩⟩

/-! Opcodes and their first byte (O8, O10, O11) -/

/-- Settles O8: each opcode's first byte carries its tag and no exact code, and its fields are read back. -/
theorem everyOpcodeDecodesFromItsEncoding : Obligations.EveryOpcodeDecodesFromItsEncoding :=
  fun _ rest => decodeOpcode_encode rest

/-- A byte of tag 00 is an INDEX of its own value (R82). -/
theorem index_byte_of_range {b : Byte} (h : b.toNat ≤ 0x3f) :
    0b00#2 ++ b.extractLsb' 0 6 = b ∧ (b.extractLsb' 0 6).toNat = b.toNat := by
  revert b; decide

/-- A byte of tag 01 is a DIFF (R82). -/
theorem diff_byte_of_range {b : Byte} (h0 : 0x40 ≤ b.toNat) (h1 : b.toNat ≤ 0x7f) :
    0b01#2 ++ b.extractLsb' 4 2 ++ b.extractLsb' 2 2 ++ b.extractLsb' 0 2 = b := by
  revert b; decide

/-- A byte of tag 10 begins a LUMA (R82). -/
theorem luma_byte_of_range {b : Byte} (h0 : 0x80 ≤ b.toNat) (h1 : b.toNat ≤ 0xbf) :
    0b10#2 ++ b.extractLsb' 0 6 = b := by
  revert b; decide

/-- Every byte is the second one of a LUMA (R75). -/
theorem luma_byte2_of_byte (b : Byte) : b.extractLsb' 4 4 ++ b.extractLsb' 0 4 = b := by
  revert b; decide

/-- A byte of tag 11 that is no exact code is a RUN (R82). -/
theorem run_byte_of_range {b : Byte} (h0 : 0xc0 ≤ b.toNat) (h1 : b.toNat ≤ 0xfd) :
    0b11#2 ++ b.extractLsb' 0 6 = b ∧ (b.extractLsb' 0 6).toNat = b.toNat - 0xc0 := by
  revert b; decide

/-- The bytes are the encoding of a well-formed opcode, followed by `rest`. -/
def BeginsWithOpcode (bs : List Byte) (i : Instr) (rest : List Byte) : Prop :=
  bs = encode i ++ rest ∧ i.wellFormed = true ∧ i.isOpcode = true

theorem BeginsWithOpcode.decodeOpcode_eq {bs : List Byte} {i : Instr} {rest : List Byte}
    (h : BeginsWithOpcode bs i rest) : decodeOpcode bs = .ok (i, rest) := by
  obtain ⟨rfl, hwf, hop⟩ := h
  exact decodeOpcode_encode rest hop hwf

theorem beginsWithOpcode_index {b : Byte} (h : b.toNat ≤ 0x3f) (rest : List Byte) :
    BeginsWithOpcode (b :: rest) (.index (b.extractLsb' 0 6)) rest :=
  ⟨by simp only [encode, (index_byte_of_range h).1, List.singleton_append], rfl, rfl⟩

theorem beginsWithOpcode_diff {b : Byte} (h0 : 0x40 ≤ b.toNat) (h1 : b.toNat ≤ 0x7f) (rest : List Byte) :
    BeginsWithOpcode (b :: rest) (.diff (b.extractLsb' 4 2) (b.extractLsb' 2 2) (b.extractLsb' 0 2)) rest :=
  ⟨by simp only [encode, diff_byte_of_range h0 h1, List.singleton_append], rfl, rfl⟩

theorem beginsWithOpcode_luma {b : Byte} (h0 : 0x80 ≤ b.toNat) (h1 : b.toNat ≤ 0xbf) (b2 : Byte) (rest : List Byte) :
    BeginsWithOpcode (b :: b2 :: rest) (.luma (b.extractLsb' 0 6) (b2.extractLsb' 4 4) (b2.extractLsb' 0 4)) rest :=
  ⟨by simp only [encode, luma_byte_of_range h0 h1, luma_byte2_of_byte, List.cons_append, List.nil_append], rfl, rfl⟩

theorem beginsWithOpcode_run {b : Byte} (h0 : 0xc0 ≤ b.toNat) (h1 : b.toNat ≤ 0xfd) (rest : List Byte) :
    BeginsWithOpcode (b :: rest) (.run (b.extractLsb' 0 6)) rest := by
  obtain ⟨hb, hlen⟩ := run_byte_of_range h0 h1
  have hwf : (b.extractLsb' 0 6).toNat < Config.runMax := by rw [hlen, Config.runMax]; omega
  exact ⟨by simp only [encode, hb, List.singleton_append], decide_eq_true hwf, rfl⟩

theorem beginsWithOpcode_rgb (r g b : Byte) (rest : List Byte) :
    BeginsWithOpcode (0xfe#8 :: r :: g :: b :: rest) (.rgb r g b) rest := ⟨rfl, rfl, rfl⟩

theorem beginsWithOpcode_rgba (rest : List Byte) : BeginsWithOpcode (0xff#8 :: rest) .rgba rest := ⟨rfl, rfl, rfl⟩

/-- The first byte of a LUMA alone is a truncated opcode (R55). -/
theorem decodeOpcode_luma_short {b : Byte} (h0 : 0x80 ≤ b.toNat) (h1 : b.toNat ≤ 0xbf) :
    decodeOpcode [b] = .error .endOfStream := by
  obtain ⟨hfe, hff, htag, -⟩ := luma_byte (b.extractLsb' 0 6)
  rw [luma_byte_of_range h0 h1] at hfe hff htag
  simp [decodeOpcode, decodeFrom, hfe, hff, htag]

/-- The decoder is total (R80): bytes begin with a well-formed opcode, or end before the opcode does. -/
theorem beginsWithOpcode_or_endOfStream (bs : List Byte) :
    (∃ i rest, BeginsWithOpcode bs i rest) ∨ decodeOpcode bs = .error .endOfStream := by
  match bs with
  | [] => exact .inr rfl
  | b :: bs =>
    have hb := b.isLt
    rcases (by omega : b.toNat ≤ 0x3f ∨ (0x40 ≤ b.toNat ∧ b.toNat ≤ 0x7f) ∨ (0x80 ≤ b.toNat ∧ b.toNat ≤ 0xbf) ∨
        (0xc0 ≤ b.toNat ∧ b.toNat ≤ 0xfd) ∨ b.toNat = 0xfe ∨ b.toNat = 0xff) with
      h | ⟨h0, h1⟩ | ⟨h0, h1⟩ | ⟨h0, h1⟩ | h | h
    · exact .inl ⟨_, _, beginsWithOpcode_index h bs⟩
    · exact .inl ⟨_, _, beginsWithOpcode_diff h0 h1 bs⟩
    · match bs with
      | [] => exact .inr (decodeOpcode_luma_short h0 h1)
      | b2 :: rest => exact .inl ⟨_, _, beginsWithOpcode_luma h0 h1 b2 rest⟩
    · exact .inl ⟨_, _, beginsWithOpcode_run h0 h1 bs⟩
    · obtain rfl : b = 0xfe#8 := BitVec.eq_of_toNat_eq h
      match bs with
      | [] | [_] | [_, _] => exact .inr rfl
      | r :: g :: b :: rest => exact .inl ⟨_, _, beginsWithOpcode_rgb r g b rest⟩
    · obtain rfl : b = 0xff#8 := BitVec.eq_of_toNat_eq h
      exact .inl ⟨_, _, beginsWithOpcode_rgba bs⟩

/-- What decodes is a well-formed opcode at the front of the bytes, and only that (R80). -/
theorem decodeOpcode_eq_ok_iff {bs : List Byte} {i : Instr} {rest : List Byte} :
    decodeOpcode bs = .ok (i, rest) ↔ BeginsWithOpcode bs i rest := by
  refine ⟨fun h => ?_, BeginsWithOpcode.decodeOpcode_eq⟩
  rcases beginsWithOpcode_or_endOfStream bs with ⟨j, more, hj⟩ | herr
  · obtain ⟨rfl, rfl⟩ : j = i ∧ more = rest := by simpa [hj.decodeOpcode_eq] using h
    exact hj
  · simp [herr] at h

/-- Settles O11: the first byte of each range is that of its opcode's encoding. -/
theorem firstByteMapIsTotal : Obligations.FirstByteMapIsTotal := by
  intro b b1 b2 b3 rest
  refine ⟨fun h => ⟨_, (index_byte_of_range h).2, (beginsWithOpcode_index h _).decodeOpcode_eq⟩,
    fun h0 h1 => ⟨_, _, _, (beginsWithOpcode_diff h0 h1 _).decodeOpcode_eq⟩,
    fun h0 h1 => ⟨_, _, _, (beginsWithOpcode_luma h0 h1 b1 _).decodeOpcode_eq⟩,
    fun h0 h1 => ⟨_, ?_, (beginsWithOpcode_run h0 h1 _).decodeOpcode_eq⟩, fun h => ?_, fun h => ?_⟩
  · rw [runLength, (run_byte_of_range h0 h1).2]
    omega
  · obtain rfl : b = 0xfe#8 := BitVec.eq_of_toNat_eq h
    exact (beginsWithOpcode_rgb b1 b2 b3 rest).decodeOpcode_eq
  · obtain rfl : b = 0xff#8 := BitVec.eq_of_toNat_eq h
    exact (beginsWithOpcode_rgba _).decodeOpcode_eq

/-! The header record (O9, O10) -/

@[simp] theorem take32_bytes32 (v : BitVec 32) (rest : List Byte) : take32 (bytes32 v ++ rest) = .ok (v, rest) := by
  simp [take32, bytes32, append_extract_bytes]

/-- A 32-bit field is read exactly where its four bytes stand (R56). -/
theorem take32_eq_ok_iff {bs rest : List Byte} {v : BitVec 32} :
    take32 bs = .ok (v, rest) ↔ bs = bytes32 v ++ rest := by
  constructor
  · intro h
    unfold take32 at h
    split at h
    · cases h
      rw [bytes32_append]; rfl
    · cases h
  · rintro rfl
    exact take32_bytes32 v rest

theorem take8_eq_ok_iff {bs rest : List Byte} {b : Byte} : take8 bs = .ok (b, rest) ↔ bs = b :: rest := by
  cases bs <;> simp [take8]

/-- The magic step passes the magic and nothing else (R102). -/
theorem decodeMagic_eq_ok_iff {bs rest : List Byte} :
    decodeMagic bs = .ok rest ↔ bs = bytes32 Config.magic ++ rest := by
  rw [← take32_eq_ok_iff, decodeMagic]
  rcases take32 bs with e | ⟨m, more⟩
  · simp
  · by_cases hm : m = Config.magic <;> simp [hm]

/-- The dimensions step reads exactly its ten bytes (R103). -/
theorem decodeDims_eq_ok_iff {bs rest : List Byte} {i : Instr} :
    decodeDims bs = .ok (i, rest) ↔
      ∃ w h ch cs, i = .header w h ch cs ∧ bs = bytes32 w ++ (bytes32 h ++ (ch :: cs :: rest)) := by
  constructor
  · intro hd
    unfold decodeDims at hd
    split at hd
    · cases hd
    next w bs1 hw =>
    split at hd
    · cases hd
    next h bs2 hh =>
    split at hd
    · cases hd
    next ch bs3 hch =>
    split at hd
    · cases hd
    next cs more hcs =>
    cases hd
    rw [take32_eq_ok_iff] at hw hh
    rw [take8_eq_ok_iff] at hch hcs
    exact ⟨w, h, ch, cs, rfl, by rw [hw, hh, hch, hcs]⟩
  · rintro ⟨w, h, ch, cs, rfl, rfl⟩
    simp only [decodeDims, take32_bytes32, take8]

/-- The header record is read exactly where its encoding stands (R71, R102, R103). -/
theorem decodeHeader_eq_ok_iff {bs rest : List Byte} {i : Instr} :
    decodeHeader bs = .ok (i, rest) ↔ ∃ w h ch cs, i = .header w h ch cs ∧ bs = encode i ++ rest := by
  have hsplit : decodeHeader bs = .ok (i, rest) ↔
      ∃ more, decodeMagic bs = .ok more ∧ decodeDims more = .ok (i, rest) := by
    rw [decodeHeader]
    cases decodeMagic bs <;> simp
  simp only [hsplit, decodeMagic_eq_ok_iff, decodeDims_eq_ok_iff]
  constructor
  · rintro ⟨_, rfl, w, h, ch, cs, rfl, rfl⟩
    exact ⟨w, h, ch, cs, rfl, rfl⟩
  · rintro ⟨w, h, ch, cs, rfl, rfl⟩
    exact ⟨_, rfl, w, h, ch, cs, rfl, rfl⟩

/-- Settles O9: the header record is read where its encoding stands, and has 14 bytes. -/
theorem everyHeaderDecodesFromItsEncoding : Obligations.EveryHeaderDecodesFromItsEncoding :=
  fun w h ch cs _ => ⟨decodeHeader_eq_ok_iff.mpr ⟨w, h, ch, cs, rfl, rfl⟩, Laws.EncodedLength.header w h ch cs⟩

/-- Settles O10: what decodes stands encoded at the front of the bytes, opcodes and header record alike. -/
theorem decodedBytesAreTheEncoding : Obligations.DecodedBytesAreTheEncoding := by
  refine ⟨fun bs i rest h => decodeOpcode_eq_ok_iff.mp h, fun bs i rest h => ?_⟩
  obtain ⟨_, _, _, _, -, hbs⟩ := decodeHeader_eq_ok_iff.mp h
  exact hbs

/-- Settles O7: each word is evaluated by the decoder. -/
theorem wordsOfTheSpecDecode : Obligations.WordsOfTheSpecDecode := by
  unfold Obligations.WordsOfTheSpecDecode
  decide

/-! The assembler (O12) -/

/-- A form whose instruction is guarded by its operands' ranges: the bytes of the instruction, or none. -/
theorem assemble_eq_ite {a : Asm} {c : Prop} [Decidable c] {i : Instr} {bs : List Byte}
    (ha : a.assemble = (if c then some i else none).map encode) (hbs : c → encode i = bs) :
    a.assemble = if c then some bs else none := by
  rw [ha]
  split_ifs with hc
  · rw [Option.map_some, hbs hc]
  · rfl

/-- The bytes of a 32-bit number, most significant first (R56). -/
theorem bytes32_ofNat (v : Nat) : bytes32 (BitVec.ofNat 32 v) =
    [BitVec.ofNat 8 (v / 2 ^ 24), BitVec.ofNat 8 (v / 2 ^ 16), BitVec.ofNat 8 (v / 2 ^ 8), BitVec.ofNat 8 v] := by
  simp only [bytes32, List.cons.injEq, and_true]
  refine ⟨?_, ?_, ?_, ?_⟩ <;> apply BitVec.eq_of_toNat_eq <;>
    simp only [BitVec.extractLsb'_toNat, BitVec.toNat_ofNat, Nat.shiftRight_eq_div_pow] <;> omega

/-- The INDEX byte as a number (R73). -/
theorem index_byte_eq (key : BitVec 6) : 0b00#2 ++ key = BitVec.ofNat 8 key.toNat := by revert key; decide

/-- The DIFF byte as a number (R74). -/
theorem diff_byte_eq (fr fg fb : BitVec 2) : 0b01#2 ++ fr ++ fg ++ fb =
    BitVec.ofInt 8 (0x40 + 16 * fr.toNat + 4 * fg.toNat + fb.toNat) := by
  revert fr fg fb; decide

/-- The first LUMA byte as a number (R75). -/
theorem luma_byte_eq (fdg : BitVec 6) : 0b10#2 ++ fdg = BitVec.ofInt 8 (0x80 + fdg.toNat) := by revert fdg; decide

/-- The second LUMA byte as a number (R75). -/
theorem luma_byte2_eq (frg fbg : BitVec 4) : frg ++ fbg = BitVec.ofInt 8 (16 * frg.toNat + fbg.toNat) := by
  revert frg fbg; decide

/-- The bytes of `DIFF dr, dg, db` (R88). -/
theorem encode_diff_biased {dr dg db : Int} (h : InDiffBox ⟨dr, dg, db⟩) :
    encode (.diff (biased 2 2 dr) (biased 2 2 dg) (biased 2 2 db)) =
      [BitVec.ofInt 8 (0x40 + 16 * (dr + 2) + 4 * (dg + 2) + (db + 2))] := by
  obtain ⟨⟨_, _⟩, ⟨_, _⟩, ⟨_, _⟩⟩ : (-2 ≤ dr ∧ dr ≤ 1) ∧ (-2 ≤ dg ∧ dg ≤ 1) ∧ (-2 ≤ db ∧ db ≤ 1) := h
  rw [encode, diff_byte_eq, biased_toNat, biased_toNat, biased_toNat] <;> omega

/-- The bytes of `LUMA dg, drg, dbg` (R88). -/
theorem encode_luma_biased {dg drg dbg : Int}
    (h : (-32 ≤ dg ∧ dg ≤ 31) ∧ (-8 ≤ drg ∧ drg ≤ 7) ∧ (-8 ≤ dbg ∧ dbg ≤ 7)) :
    encode (.luma (biased 6 32 dg) (biased 4 8 drg) (biased 4 8 dbg)) =
      [BitVec.ofInt 8 (0x80 + (dg + 32)), BitVec.ofInt 8 (16 * (drg + 8) + (dbg + 8))] := by
  obtain ⟨⟨_, _⟩, ⟨_, _⟩, ⟨_, _⟩⟩ := h
  rw [encode, luma_byte_eq, luma_byte2_eq, biased_toNat, biased_toNat, biased_toNat] <;> omega

/-- The byte of `INDEX k` (R88). -/
theorem encode_index_ofNat {k : Nat} (h : k ≤ 63) : encode (.index (BitVec.ofNat 6 k)) = [BitVec.ofNat 8 k] := by
  rw [encode, index_byte_eq, BitVec.toNat_ofNat, Nat.mod_eq_of_lt (by omega)]

/-- The byte of `RUN n` (R88, R89). -/
theorem encode_run_ofNat {n : Nat} (h : 1 ≤ n ∧ n ≤ Config.runMax) :
    encode (.run (BitVec.ofNat 6 (n - 1))) = [BitVec.ofNat 8 (0xc0 + (n - 1))] := by
  have hn : n - 1 < 2 ^ 6 := by rw [Config.runMax] at h; omega
  rw [encode, run_byte_eq, BitVec.toNat_ofNat, Nat.mod_eq_of_lt hn]

/-- Settles O12: each form's guard is the table's constraint, and its fields the bytes the table writes. -/
theorem assemblerFollowsItsTable : Obligations.AssemblerFollowsItsTable := by
  refine ⟨fun w h ch cs => assemble_eq_ite rfl fun _ => ?_, fun w h => ?_,
    fun k => assemble_eq_ite rfl encode_index_ofNat, fun dr dg db => assemble_eq_ite rfl encode_diff_biased,
    fun dg drg dbg => assemble_eq_ite rfl encode_luma_biased, fun n => assemble_eq_ite rfl encode_run_ofNat,
    fun r g b => assemble_eq_ite rfl fun _ => rfl, rfl, fun v => rfl⟩
  · rw [encode, bytes32_ofNat, bytes32_ofNat]
    rfl
  · simp [Asm.assemble, Asm.instr?, Config.hdrChannels, Config.hdrColorspace]

end Sys2Proof.Machine
end

section
/-! PROOFS. The header steps of both blocks. -/

namespace Sys2Proof.Machine

/-! What a header part sees of IN -/

@[simp] theorem Memory.window_zero {α : Type} (m : Memory α) (a : Nat) : m.window a 0 = [] := rfl

/-- A window begins with an element exactly when that element stands at its first position. -/
theorem Memory.window_succ_eq_cons_iff {α : Type} {m : Memory α} {a n : Nat} {v : α} {vs : List α} :
    m.window a (n + 1) = v :: vs ↔ m.read a = some v ∧ m.window (a + 1) n = vs := by
  rw [Memory.window]
  cases m.read a <;> simp

/-- `MemRead` of `n` elements sees as many of them as there are from `a` to the end (R55). -/
theorem Memory.window_length {α : Type} {m : Memory α} (h : m.dense) (a n : Nat) :
    (m.window a n).length = min n (m.length - a) := by
  have hw := Memory.window_ofList m.elements a n
  rw [← Memory.eq_ofList h] at hw
  simp [hw, Memory.elements]

/-! The magic step (O19) -/

/-- The bytes at offsets 0 to 3 are the magic (R71). -/
def BeginsWithMagic (m : Memory Byte) : Prop :=
  m.read 0 = some 0x71#8 ∧ m.read 1 = some 0x6f#8 ∧ m.read 2 = some 0x69#8 ∧ m.read 3 = some 0x66#8

/-- It is what the magic step sees of IN when it passes (R102). -/
theorem beginsWithMagic_iff_window {m : Memory Byte} :
    BeginsWithMagic m ↔ m.window 0 4 = bytes32 Config.magic := by
  have hmagic : bytes32 Config.magic = [0x71#8, 0x6f#8, 0x69#8, 0x66#8] := by decide
  simp only [hmagic, Memory.window_succ_eq_cons_iff, Memory.window_zero, and_true, BeginsWithMagic]

/-- Fewer than four bytes are not the magic. -/
theorem BeginsWithMagic.four_le_length {m : Memory Byte} (hd : m.dense) (h : BeginsWithMagic m) : 4 ≤ m.length := by
  obtain ⟨-, -, -, h3⟩ := h
  exact (Memory.read_isSome_of_dense hd 3).mp (by simp [h3])

/-- Too few bytes are the end of the stream; enough bytes are rejected as a bad magic only (R102, R188). -/
theorem decodeMagic_error {bs : List Byte} {e : DecodeError} (h : decodeMagic bs = .error e) :
    e = if bs.length < 4 then .endOfStream else .badMagic := by
  rcases bs with _ | ⟨b0, _ | ⟨b1, _ | ⟨b2, _ | ⟨b3, rest⟩⟩⟩⟩
  case cons.cons.cons.cons =>
    simp only [decodeMagic, take32] at h
    split at h
    · cases h
    · cases h; simp
  all_goals cases h; rfl

/-- At position 0 of HEADER, DEC's turn is the magic step. -/
theorem decTurn_eq_magicStep {s : State} (hp : s.dec.phase = .header) (hpc : s.dec.pc = 0) :
    runEvent .decTurn s = .next (magicStep s) := by
  simp [runEvent_decTurn, Dec.ready, decStep, hp, hpc]

/-- The magic lets DEC go on to the dimensions. -/
theorem magicStep_of_magic {s : State} (h : BeginsWithMagic s.inp) :
    magicStep s = { s with dec := { s.dec with pc := 4 } } := by
  have hok : decodeMagic (s.inp.window 0 4) = .ok [] := by
    rw [decodeMagic_eq_ok_iff, beginsWithMagic_iff_window.mp h, List.append_nil]
  simp [magicStep, hok]

/-- Without the magic it is a fault, and the number of bytes present says which. -/
theorem magicStep_of_not_magic {s : State} (hd : s.inp.dense) (h : ¬ BeginsWithMagic s.inp) :
    magicStep s = takeFault (if s.inp.length < 4 then .unexpectedEndOfStream else .formatError) s := by
  have hlen := Memory.window_length hd 0 4
  rcases magicStep_cases s with ⟨rest, hok, -⟩ | ⟨e, herr, ht⟩
  · rw [decodeMagic_eq_ok_iff] at hok
    obtain rfl : rest = [] := by
      rw [hok, List.length_append, show (bytes32 Config.magic).length = 4 from rfl] at hlen
      exact List.length_eq_zero_iff.mp (by omega)
    exact absurd (beginsWithMagic_iff_window.mpr (by simpa using hok)) h
  · have hiff : (s.inp.window 0 4).length < 4 ↔ s.inp.length < 4 := by omega
    rw [ht, decodeMagic_error herr]
    simp only [hiff]
    split <;> rfl

/-- Settles O19: the magic passes, and anything else is the fault that the number of bytes names. -/
theorem magicStepChecksFourBytes : Obligations.MagicStepChecksFourBytes := by
  intro s hp hpc hd
  rw [decTurn_eq_magicStep hp hpc]
  refine ⟨fun hlt => ⟨_, rfl, ?_⟩, fun hle => ⟨fun hm => congrArg _ (magicStep_of_magic hm), fun hm => ⟨_, rfl, ?_⟩⟩⟩
  · have hm : ¬ BeginsWithMagic s.inp := fun hm => absurd (hm.four_le_length hd) (by omega)
    rw [magicStep_of_not_magic hd hm, if_pos hlt]
    exact faultEntered_takeFault s _
  · rw [magicStep_of_not_magic hd hm, if_neg (by omega)]
    exact faultEntered_takeFault s _

/-! The dimensions step (O20) -/

/-- No pixel is owed exactly when a dimension is 0: the product does not wrap (R6). -/
theorem pixelTotal_eq_zero_iff (w h : Dim) : pixelTotal w h = 0#64 ↔ w.toNat * h.toNat = 0 := by
  rw [← pixelTotal_toNat, ← BitVec.toNat_inj]
  rfl

/-- What HEADER does where it is enabled (R103). -/
theorem exec_header {s : State} (w h : Dim) (ch cs : Byte) (hp : s.dec.phase = .header) (hpc : s.dec.pc = 4) :
    exec (.header w h ch cs) s = .next { s with dec := { s.dec with
      width := w, height := h, channels := ch, colorspace := cs, nTotal := pixelTotal w h, pc := 14,
      phase := if pixelTotal w h = 0#64 then .done else .opcodes } } :=
  if_pos ⟨hp, hpc⟩

/-- Fewer than ten bytes hold no dimensions (R103). -/
theorem decodeDims_short {bs : List Byte} (h : bs.length < 10) : decodeDims bs = .error .endOfStream := by
  cases hd : decodeDims bs with
  | error e => rw [decodeDims_error hd]
  | ok r =>
    obtain ⟨w, ht, ch, cs, -, rfl⟩ := (decodeDims_eq_ok_iff (i := r.1) (rest := r.2)).mp hd
    simp [bytes32] at h
    omega

/-- At position 4 of HEADER, DEC's turn runs what it fetches for the dimensions. -/
theorem decTurn_eq_execFetched_fetchDims {s : State} (hp : s.dec.phase = .header) (hpc : s.dec.pc = 4) :
    runEvent .decTurn s = execFetched (fetchDims s) s := by
  simp [runEvent_decTurn, Dec.ready, decStep, hp, hpc]

/-- A header cut short behind its magic. -/
theorem fetchDims_short {s : State} (hd : s.inp.dense) (h : s.inp.length < 14) :
    fetchDims s = .error .endOfStream :=
  decodeDims_short (by rw [Memory.window_length hd]; omega)

/-- Settles O20: the four fields and their product are latched, read big-endian, and not at all from a short header. -/
theorem headerLatchesTheDimensions : Obligations.HeaderLatchesTheDimensions := by
  refine ⟨?_, ?_, ?_⟩
  · intro s w h ch cs hp hpc
    exact ⟨_, exec_header w h ch cs hp hpc, rfl, rfl, rfl, rfl, pixelTotal_toNat w h, rfl,
      if_congr (pixelTotal_eq_zero_iff w h) rfl rfl, rfl, rfl, rfl, rfl, rfl, rfl, rfl, rfl, rfl, rfl, rfl, rfl, rfl⟩
  · intro w0 w1 w2 w3 h0 h1 h2 h3 ch cs rest
    exact ⟨w0 ++ w1 ++ w2 ++ w3, h0 ++ h1 ++ h2 ++ h3, rfl, toNat_append_bytes w0 w1 w2 w3,
      toNat_append_bytes h0 h1 h2 h3⟩
  · intro s hp hpc hd hlt
    rw [decTurn_eq_execFetched_fetchDims hp hpc, fetchDims_short hd hlt]
    exact ⟨_, rfl, faultEntered_takeFault s _⟩

/-! The encoder's header step (O36) -/

/-- The fourteen bytes of a header record as numbers (R71, R56). -/
theorem encode_header_eq (w h : Dim) (ch cs : Byte) : encode (.header w h ch cs) =
    [0x71#8, 0x6f#8, 0x69#8, 0x66#8,
      BitVec.ofNat 8 (w.toNat / 2 ^ 24), BitVec.ofNat 8 (w.toNat / 2 ^ 16), BitVec.ofNat 8 (w.toNat / 2 ^ 8),
      BitVec.ofNat 8 w.toNat,
      BitVec.ofNat 8 (h.toNat / 2 ^ 24), BitVec.ofNat 8 (h.toNat / 2 ^ 16), BitVec.ofNat 8 (h.toNat / 2 ^ 8),
      BitVec.ofNat 8 h.toNat, ch, cs] := by
  have hw := bytes32_ofNat w.toNat
  have hh := bytes32_ofNat h.toNat
  rw [BitVec.ofNat_toNat, BitVec.setWidth_eq] at hw hh
  rw [encode, hw, hh]
  rfl

/-- In HEADER, ENC's turn is the header step (R100). -/
theorem encTurn_eq_encHeaderStep {s : State} (hp : s.enc.phase = .header) :
    runEvent .encTurn s = .next (encHeaderStep s) := by
  simp [runEvent_encTurn, State.encReady, encStep, hp]

/-- The header step writes offsets 0 to 13 of OUT and no other (R100, R101). -/
theorem encHeaderStep_out_read (s : State) (a : Nat) : (encHeaderStep s).out.read a =
    if a < 14 then (encode (.header s.enc.width s.enc.height 3#8 1#8))[a]? else s.out.read a := by
  have hlen : (encode (.header s.enc.width s.enc.height 3#8 1#8)).length = 14 := Laws.EncodedLength.header _ _ _ _
  have hout : (encHeaderStep s).out = s.out.writeList 0 (encode (.header s.enc.width s.enc.height 3#8 1#8)) := rfl
  simp only [hout, Memory.read_writeList, hlen, Nat.zero_le, true_and, Nat.zero_add, Nat.sub_zero]

/-- Settles O36: OUT read at each offset of the header and past it; the other registers are as the step leaves them. -/
theorem encoderEmitsTheHeader : Obligations.EncoderEmitsTheHeader := by
  intro s hp
  have hr := encHeaderStep_out_read s
  rw [encode_header_eq] at hr
  exact ⟨encHeaderStep s, encTurn_eq_encHeaderStep hp, hr 0, hr 1, hr 2, hr 3, hr 4, hr 5, hr 6, hr 7, hr 8, hr 9,
    hr 10, hr 11, hr 12, hr 13, fun a ha => (hr a).trans (if_neg (by omega)), rfl, rfl, rfl, rfl, rfl, rfl⟩

end Sys2Proof.Machine
end

section
/-! PROOFS. The classifier and the pixel step of the encoder. -/

namespace Sys2Proof.Machine

/-! The classifier (O6) -/

/-- DIFF is tested before LUMA (R129). -/
theorem classify_eq_ite (d : Delta) :
    classify d = if InDiffBox d then .diff else if InLumaBox d then .luma else .rgb := by
  simp only [classify, Bool.and_eq_true, within_iff, and_assoc, InDiffBox, InLumaBox]

/-- Settles O6: each answer is the branch of the two tests that gives it. -/
theorem classifierTestsDiffThenLuma : Obligations.ClassifierTestsDiffThenLuma := by
  intro d
  rw [classify_eq_ite]
  split_ifs with hd hl
  · exact ⟨iff_of_true rfl hd, iff_of_false nofun fun h => h.1 hd, iff_of_false nofun fun h => h.1 hd⟩
  · exact ⟨iff_of_false nofun hd, iff_of_true rfl ⟨hd, hl⟩, iff_of_false nofun fun h => h.2 hl⟩
  · exact ⟨iff_of_false nofun hd, iff_of_false nofun fun h => hl h.2, iff_of_true rfl ⟨hd, hl⟩⟩

/-! The end of a pixel step -/

/-- At a step boundary the run is at most 61 (R25). -/
theorem EncHas.run_le {s : State} {cur : Pixel} (h : EncHas s cur) : s.enc.run.toNat ≤ 61 := by
  obtain ⟨-, -, -, hrun⟩ := h
  exact hrun

/-- What `encFinish` does to a state in which the step has changed OUT, the cache, the run and `out_len` only (R133,
R134). -/
theorem pixelConsumed_encFinish {s : State} {cur : Pixel} (hs : EncHas s cur) (out : Memory Byte) (c : Cache)
    (run : BitVec 6) (len : Nat) :
    PixelConsumed s
      (encFinish cur { s with out := out, enc := { s.enc with cache := c, run := run, outLen := len } }) cur := by
  obtain ⟨hp, -, hlt, -⟩ := hs
  have hsucc := inCount_succ hlt
  have hlast : s.enc.inCount + 1#64 = s.enc.nTotal ↔ s.enc.inCount.toNat + 1 = s.enc.nTotal.toNat := by
    rw [← BitVec.toNat_inj, hsucc]
  refine ⟨rfl, hsucc, ?_, rfl, rfl, rfl, rfl, rfl, rfl, rfl, rfl⟩
  simp only [encFinish_enc, hlast, hp]

/-! A pixel equal to `prev` (O37) -/

/-- The RUN byte of a run that the current pixel completes (R76). -/
theorem runByte_succ (run : BitVec 6) : [runByte (run.toNat + 1)] = encode (.run run) := by
  rw [encode, run_byte_eq, runByte, Nat.add_sub_cancel]

/-- The test that makes the run branch flush (R123), as numbers. -/
theorem flushTest_iff {e : Enc} (h : e.run.toNat ≤ 61) :
    e.run + 1#6 = 62#6 ∨ e.atLast = true ↔ e.run.toNat + 1 = 62 ∨ e.inCount.toNat + 1 = e.nTotal.toNat := by
  have h62 : (62#6).toNat = 62 := rfl
  rw [← BitVec.toNat_inj, run_succ h, h62, Enc.atLast, decide_eq_true_iff]

/-- Settles O37: the run branch flushes where R123's test holds and counts elsewhere, and leaves the rest to
`encFinish`. -/
theorem equalPixelIsCountedOrFlushed : Obligations.EqualPixelIsCountedOrFlushed := by
  intro s hs
  have hrun := hs.run_le
  rw [encTurn_eq_next hs, encPixelStep_run]
  simp only [flushTest_iff hrun]
  split
  · refine ⟨_, rfl, pixelConsumed_encFinish hs _ _ _ _, rfl, ?_, rfl⟩
    rw [runByte_succ]
    exact appendsBytes_writeList _ rfl rfl
  · exact ⟨_, rfl, pixelConsumed_encFinish hs _ _ _ _, rfl, appendsBytes_writeList _ rfl rfl, run_succ hrun⟩

/-! A pixel that differs from `prev` (O38, O39) -/

/-- ENC's turn on a pixel that differs from `prev`: the pending run's bytes and the pixel's own opcode are appended, and
no run is pending after it (R124, R126, R127). -/
theorem encTurn_coded {s : State} {cur : Pixel} (hs : EncHas s cur) (hne : cur ≠ s.enc.prev) :
    ∃ t, runEvent .encTurn s = .next t ∧ PixelConsumed s t cur ∧
      AppendsBytes s t (flushed s.enc ++ encode (chosen s.enc cur).1) ∧ t.enc.run = 0#6 ∧
      t.enc.cache = (chosen s.enc cur).2 := by
  rw [encTurn_eq_next hs, encPixelStep_other hne]
  exact ⟨_, rfl, pixelConsumed_encFinish hs _ _ _ _, appendsBytes_writeList _ rfl rfl, rfl, rfl⟩

/-- The bytes of a pending run are those of its RUN (R124). -/
theorem flushed_eq_encode_run {e : Enc} (h : e.run ≠ 0#6) : flushed e = encode (.run (e.run - 1#6)) := by
  have hpos : 0 < e.run.toNat := Nat.pos_of_ne_zero (BitVec.toNat_ne.mp h)
  simp [flushed, Enc.runPending, encode, hpos]

theorem flushed_eq_nil {e : Enc} (h : e.run = 0#6) : flushed e = [] := by simp [flushed, Enc.runPending, h]

/-- A pending run as the spec writes its byte (R76, R124). -/
theorem flushed_eq_pendingRun {s : State} (h : s.enc.run.toNat ≤ 61) : flushed s.enc = pendingRun s := by
  by_cases hz : s.enc.run = 0#6
  · simp [flushed_eq_nil hz, pendingRun, hz]
  · have hpred := (run_pred h hz).1
    rw [flushed_eq_encode_run hz, ← runByte_succ, hpred, pendingRun, if_neg (by omega)]

/-- A key is the hash of a pixel when it is the weighted sum modulo 64 (R27). -/
theorem eq_hash {key : BitVec 6} {p : Pixel}
    (h : key.toNat = (3 * p.r.toNat + 5 * p.g.toNat + 7 * p.b.toNat) % 64) : key = hash p :=
  BitVec.eq_of_toNat_eq (by rw [h, hash_toNat])

/-- On a hit the opcode is INDEX and the cache stays (R126). -/
theorem chosen_of_hit {e : Enc} {cur : Pixel} (h : e.cache.read (hash cur) = cur) :
    chosen e cur = (.index (hash cur), e.cache) := if_pos h

/-- On a miss the pixel takes its slot, whatever the classifier answers (R127). -/
theorem chosen_of_miss {e : Enc} {cur : Pixel} (h : e.cache.read (hash cur) ≠ cur) :
    chosen e cur = (missOpcode e.prev cur, e.cache.write (hash cur) cur) := if_neg h

/-- Settles O38: the opcode of a hit is INDEX. -/
theorem cachedPixelEmitsIndex : Obligations.CachedPixelEmitsIndex := by
  intro s cur key hs hne hkey hhit
  obtain rfl := eq_hash hkey
  obtain ⟨t, ht, hcons, happ, hrun, hcache⟩ := encTurn_coded hs hne
  rw [chosen_of_hit hhit] at happ hcache
  rw [flushed_eq_pendingRun hs.run_le, encode, index_byte_eq] at happ
  exact ⟨t, ht, hcons, happ, hrun, hcache⟩

/-- The bytes of the opcode of a miss: DIFF's, LUMA's or RGB's, by the box the difference is in (R130, R131, R132). -/
theorem encode_missOpcode (prev cur : Pixel) {dr dg db : Int} (hd : pixelSub cur prev = ⟨dr, dg, db⟩) :
    encode (missOpcode prev cur) =
      if InDiffBox ⟨dr, dg, db⟩ then [BitVec.ofInt 8 (0x40 + 16 * (dr + 2) + 4 * (dg + 2) + (db + 2))]
      else if InLumaBox ⟨dr, dg, db⟩ then
        [BitVec.ofInt 8 (0x80 + (dg + 32)), BitVec.ofInt 8 (16 * (dr - dg + 8) + (db - dg + 8))]
      else [0xfe#8, cur.r, cur.g, cur.b] := by
  simp only [missOpcode, hd, classify_eq_ite]
  by_cases hdiff : InDiffBox ⟨dr, dg, db⟩
  · simp only [if_pos hdiff]
    exact encode_diff_biased hdiff
  · by_cases hluma : InLumaBox ⟨dr, dg, db⟩
    · simp only [if_neg hdiff, if_pos hluma]
      exact encode_luma_biased hluma
    · simp only [if_neg hdiff, if_neg hluma]
      rfl

/-- Settles O39: the opcode of a miss is the one its difference calls for, and the pixel takes its slot. -/
theorem missedPixelEmitsDiffLumaOrRgb : Obligations.MissedPixelEmitsDiffLumaOrRgb := by
  intro s cur key hs hne hkey hmiss
  obtain rfl := eq_hash hkey
  obtain ⟨t, ht, hcons, happ, hrun, hcache⟩ := encTurn_coded hs hne
  rw [chosen_of_miss hmiss] at happ hcache
  rw [flushed_eq_pendingRun hs.run_le, encode_missOpcode s.enc.prev cur rfl] at happ
  exact ⟨t, _, _, _, _, rfl, rfl, rfl, rfl, ht, hcons, happ, hrun, hcache ▸ cacheTakes_write _ _⟩

/-! The number of bytes of a pixel step (O40) -/

theorem flushed_length_le (e : Enc) : (flushed e).length ≤ 1 := by
  unfold flushed
  split <;> simp

theorem encode_length_pos (i : Instr) : 0 < (encode i).length := by cases i <;> simp [encode]

/-- A pixel equal to `prev` lets `out_len` grow by 0 or 1 (R136). -/
theorem outLen_of_equal {s t : State} (hs : EncHas s s.enc.prev) (h : runEvent .encTurn s = .next t) :
    s.enc.outLen ≤ t.enc.outLen ∧ t.enc.outLen ≤ s.enc.outLen + 1 := by
  obtain ⟨u, hu, -, -, hcase⟩ := equalPixelIsCountedOrFlushed s hs
  obtain rfl : u = t := by simpa [hu] using h
  split at hcase
  · obtain ⟨⟨-, hlen⟩, -⟩ := hcase
    simp only [List.length_singleton] at hlen
    omega
  · obtain ⟨⟨-, hlen⟩, -⟩ := hcase
    simp only [List.length_nil] at hlen
    omega

/-- A pixel that differs from `prev` lets `out_len` grow by 1 to 5: the opcode, and perhaps a pending run (R136). -/
theorem outLen_of_differs {s t : State} {cur : Pixel} (hs : EncHas s cur) (hne : cur ≠ s.enc.prev)
    (h : runEvent .encTurn s = .next t) :
    s.enc.outLen < t.enc.outLen ∧ t.enc.outLen ≤ s.enc.outLen + 5 := by
  obtain ⟨u, hu, -, ⟨-, hlen⟩, -⟩ := encTurn_coded hs hne
  obtain rfl : u = t := by simpa [hu] using h
  have hflush := flushed_length_le s.enc
  have hpos := encode_length_pos (chosen s.enc cur).1
  have hfour : _ ≤ 4 := encode_length_le (chosen_wellFormed s.enc cur).2
  rw [List.length_append] at hlen
  omega

/-- Settles O40: the bound for a pixel equal to `prev`, and the one for a pixel that differs. -/
theorem pixelStepEmitsAtMostFiveBytes : Obligations.PixelStepEmitsAtMostFiveBytes := by
  intro s t cur hs h
  by_cases hc : cur = s.enc.prev
  · subst hc
    obtain ⟨hlo, hhi⟩ := outLen_of_equal hs h
    exact ⟨hlo, by omega, fun _ => hhi, fun hne => absurd rfl hne⟩
  · obtain ⟨hlo, hhi⟩ := outLen_of_differs hs hc h
    exact ⟨hlo.le, hhi, fun heq => absurd heq hc, fun _ => hlo⟩

end Sys2Proof.Machine
end

section
/-! PROOFS. Decoding an encoded image returns it (O48): what ENC appends for the rest of an image decodes, for every DEC
that agrees with ENC, to the pending run and that rest. -/

namespace Sys2Proof.Machine

/-! Appending in several steps -/

/-- The elements `vs` are appended to `m` at `n`, and give `m'`; every other position reads as before. -/
def Memory.Appends {α : Type} (m : Memory α) (n : Nat) (vs : List α) (m' : Memory α) : Prop :=
  ∀ a, m'.read a = if n ≤ a ∧ a < n + vs.length then vs[a - n]? else m.read a

theorem Memory.Appends.refl {α : Type} (m : Memory α) (n : Nat) : m.Appends n [] m := fun a => by simp

theorem Memory.Appends.trans {α : Type} {m m' m'' : Memory α} {n : Nat} {vs ws : List α} (h : m.Appends n vs m')
    (h' : m'.Appends (n + vs.length) ws m'') : m.Appends n (vs ++ ws) m'' := by
  intro a
  rw [h' a, h a, List.length_append]
  by_cases hw : n + vs.length ≤ a ∧ a < n + vs.length + ws.length
  · rw [if_pos hw, if_pos (by omega), List.getElem?_append_right (by omega), Nat.sub_sub]
  · rw [if_neg hw]
    by_cases hv : n ≤ a ∧ a < n + vs.length
    · rw [if_pos hv, if_pos (by omega), List.getElem?_append_left (by omega)]
    · rw [if_neg hv, if_neg (by omega)]

/-- A window sees the elements that stand where it begins. -/
theorem Memory.window_eq {α : Type} {m : Memory α} (vs : List α) (a : Nat)
    (h : ∀ k, k < vs.length → m.read (a + k) = vs[k]?) : m.window a vs.length = vs := by
  induction vs generalizing a with
  | nil => rfl
  | cons v vs ih =>
    have hhead : m.read a = some v := h 0 (Nat.succ_pos _)
    have htail := ih (a + 1) fun k hk => by
      simpa [Nat.add_assoc, Nat.add_comm 1] using h (k + 1) (Nat.succ_lt_succ hk)
    exact Memory.window_succ_eq_cons_iff.mpr ⟨hhead, htail⟩

/-- What was appended is what a window at its place sees. -/
theorem Memory.Appends.window {α : Type} {m m' : Memory α} {n : Nat} {vs : List α} (h : m.Appends n vs m') :
    m'.window n vs.length = vs :=
  Memory.window_eq vs n fun k hk => by rw [h, if_pos (by omega), Nat.add_sub_cancel_left]

theorem AppendsBytes.refl (s : State) : AppendsBytes s s [] := ⟨Memory.Appends.refl _ _, rfl⟩

theorem AppendsBytes.trans {s t u : State} {bs cs : List Byte} (h : AppendsBytes s t bs) (h' : AppendsBytes t u cs) :
    AppendsBytes s u (bs ++ cs) := by
  obtain ⟨hread, hlen⟩ := h
  obtain ⟨hread', hlen'⟩ := h'
  rw [hlen] at hread' hlen'
  exact ⟨Memory.Appends.trans hread hread', by rw [hlen', List.length_append, Nat.add_assoc]⟩

/-- A pixel emitted `n` times is `n` pixels appended. -/
theorem EmitsPixels.appends {s t : State} {p : Pixel} {n : Nat} (h : EmitsPixels s t p n) :
    s.pixOut.Appends s.dec.outCount.toNat (List.replicate n p) t.pixOut := by
  intro a
  rw [h.1 a, List.length_replicate]
  refine ite_congr rfl (fun ha => ?_) fun _ => rfl
  rw [List.getElem?_replicate_of_lt (by omega)]

/-! Steps with an empty agenda (log 4) -/

/-- A DEC that has a step takes it. -/
theorem step_eq_decTurn {s : State} (ha : s.agenda = []) (hd : s.dec.ready = true) : step s = runEvent .decTurn s := by
  obtain ⟨-, hdec, -⟩ := agendaDrivesTheStep
  exact hdec s ha hd

/-- When DEC has none, an ENC that has a step takes it. -/
theorem step_eq_encTurn {s : State} (ha : s.agenda = []) (hd : s.dec.ready = false) (he : s.encReady = true) :
    step s = runEvent .encTurn s := by
  obtain ⟨-, -, henc, -⟩ := agendaDrivesTheStep
  exact henc s ha hd he

theorem reaches_trans {j k : Nat} {s t u : State} (h : Reaches j s t) (h' : Reaches k t u) : Reaches (j + k) s u := by
  induction j generalizing s with
  | zero =>
    obtain rfl : t = s := h
    rwa [Nat.zero_add]
  | succ j ih =>
    obtain ⟨v, hv, hrest⟩ := h
    rw [Nat.add_right_comm]
    exact ⟨v, hv, ih hrest⟩

/-! A part of the stream decoded -/

/-- DEC goes from `s` to `t`, past the bytes `bs`, and emits the pixels `ps`; its header registers, IN and the agenda
stay. -/
structure DecodesTo (s t : State) (bs : List Byte) (ps : List Pixel) : Prop where
  reaches : ∃ k, Reaches k s t
  pc : t.dec.pc = s.dec.pc + bs.length
  pixels : s.pixOut.Appends s.dec.outCount.toNat ps t.pixOut
  count : t.dec.outCount.toNat = s.dec.outCount.toNat + ps.length
  width : t.dec.width = s.dec.width
  height : t.dec.height = s.dec.height
  total : t.dec.nTotal = s.dec.nTotal
  inp : t.inp = s.inp
  agenda : t.agenda = s.agenda

theorem DecodesTo.refl (s : State) : DecodesTo s s [] [] where
  reaches := ⟨0, rfl⟩
  pc := rfl
  pixels := .refl _ _
  count := rfl
  width := rfl
  height := rfl
  total := rfl
  inp := rfl
  agenda := rfl

theorem DecodesTo.trans {s t u : State} {bs cs : List Byte} {ps qs : List Pixel} (h : DecodesTo s t bs ps)
    (h' : DecodesTo t u cs qs) : DecodesTo s u (bs ++ cs) (ps ++ qs) where
  reaches := by
    obtain ⟨j, hj⟩ := h.reaches
    obtain ⟨k, hk⟩ := h'.reaches
    exact ⟨j + k, reaches_trans hj hk⟩
  pc := by rw [h'.pc, h.pc, List.length_append, Nat.add_assoc]
  pixels := h.pixels.trans (h.count ▸ h'.pixels)
  count := by rw [h'.count, h.count, List.length_append, Nat.add_assoc]
  width := h'.width.trans h.width
  height := h'.height.trans h.height
  total := h'.total.trans h.total
  inp := h'.inp.trans h.inp
  agenda := h'.agenda.trans h.agenda

/-- DEC, alone with an empty agenda and behind its header, agrees with an ENC that holds `prev` and the cache (R48), and
owes `n` pixels: the count has put it in DONE or OPCODES (R151). -/
structure Tracks (s : State) (prev : Pixel) (cache : Cache) (n : Nat) : Prop where
  agenda : s.agenda = []
  phase : s.dec.phase = if s.dec.outCount = s.dec.nTotal then .done else .opcodes
  owed : s.dec.outCount.toNat + n = s.dec.nTotal.toNat
  prev : s.dec.prev = prev
  cache : s.dec.cache = cache

theorem Tracks.owes {s : State} {p : Pixel} {c : Cache} {n : Nat} (h : Tracks s p c n) (hn : 0 < n) : Owes s := by
  have howed := h.owed
  have hne : s.dec.outCount ≠ s.dec.nTotal := BitVec.toNat_ne.mpr (by omega)
  exact ⟨by rw [h.phase, if_neg hne], by omega⟩

theorem Tracks.done {s : State} {p : Pixel} {c : Cache} (h : Tracks s p c 0) : s.dec.phase = .done := by
  rw [h.phase, if_pos (BitVec.eq_of_toNat_eq h.owed)]

/-- An opcode that emits pixels leaves the frame of an opcode alone, and the count decides the phase (R150, R151). -/
theorem exec_frame_of_emits {i : Instr} {s t : State} {p : Pixel} {n : Nat} (h : exec i s = .next t)
    (hp : s.dec.phase = .opcodes) (he : EmitsPixels s t p n) (hn : 0 < n) :
    OpcodeFrame s t ∧ t.dec.phase = if t.dec.outCount = t.dec.nTotal then .done else .opcodes := by
  have hcount := he.2
  rcases exec_cases h with ⟨_, _, _, _, _, hheader, _⟩ | ⟨-, ⟨_, rfl⟩ | ⟨_, _, _, rfl⟩ | ⟨_, _, rfl⟩ | ⟨l, _, rfl⟩⟩
  · rw [hp] at hheader
    cases hheader
  · simp only [takeFault_dec] at hcount
    omega
  · exact ⟨by simp [OpcodeFrame], by simp [hp]⟩
  · exact ⟨by simp [OpcodeFrame], by simp [hp]⟩
  · have hf := emitPixels_fields (min (runLength l) s.dec.owed) s.dec.prev s
    exact ⟨by simp [OpcodeFrame, hf], by simp [hf, hp]⟩

/-- DEC, alone with an empty agenda, runs the opcode whose bytes IN holds at `pc`: one part of the stream. -/
theorem decodesTo_of_exec {i : Instr} {s t : State} {p q : Pixel} {c d : Cache} {n m : Nat}
    (hs : Tracks s p c (n + m)) (hn : 0 < n) (hi : i.wellFormed = true ∧ i.isOpcode = true)
    (hb : InpHasAtPc s (encode i)) (hx : exec i s = .next t) (he : EmitsPixels s t q n)
    (hpc : t.dec.pc = s.dec.pc + (encode i).length) (hcache : t.dec.cache = d) (hprev : t.dec.prev = q) :
    DecodesTo s t (encode i) (List.replicate n q) ∧ Tracks t q d m := by
  have ho := hs.owes (by omega)
  obtain ⟨⟨-, hwidth, hheight, htotal, -, -, -, -, -, hinp, hagenda, -⟩, hphase⟩ :=
    exec_frame_of_emits hx ho.1 he hn
  have hready : s.dec.ready = true := by simp [Dec.ready, ho.1]
  have hstep : step s = .next t := by
    rw [step_eq_decTurn hs.agenda hready, decTurn_eq_exec ho.1 hi.2 hi.1 hb, hx]
  have hcount := he.2
  have howed := hs.owed
  refine ⟨?_, ⟨hagenda.trans hs.agenda, hphase, by rw [htotal]; omega, hprev, hcache⟩⟩
  exact {
    reaches := ⟨1, t, hstep, rfl⟩
    pc := hpc
    pixels := he.appends
    count := by rw [hcount, List.length_replicate]
    width := hwidth
    height := hheight
    total := htotal
    inp := hinp
    agenda := hagenda }

/-- A RUN of pixels that are owed repeats `prev` (R154). -/
theorem decodes_run {s : State} {p : Pixel} {c : Cache} {m : Nat} (l : BitVec 6)
    (hl : (Instr.run l).wellFormed = true) (hs : Tracks s p c (l.toNat + 1 + m)) (hb : InpHasAtPc s (encode (.run l))) :
    ∃ t, DecodesTo s t (encode (.run l)) (List.replicate (l.toNat + 1) p) ∧ Tracks t p c m := by
  have howed := hs.owed
  obtain ⟨t, hx, hprev, hcache, -, -, he, hpc, -⟩ := exec_run_unclipped l (hs.owes (by omega)) (by omega)
  rw [hs.prev] at he hprev
  exact ⟨t, decodesTo_of_exec hs (Nat.succ_pos _) ⟨hl, rfl⟩ hb hx he hpc (hcache.trans hs.cache) hprev⟩

/-- The bytes of a pending run, if there is one, repeat `prev` (R124). -/
theorem decodes_flushed {s : State} {e : Enc} {m : Nat} (he : e.run.toNat ≤ 61)
    (hs : Tracks s e.prev e.cache (e.run.toNat + m)) (hb : InpHasAtPc s (flushed e)) :
    ∃ t, DecodesTo s t (flushed e) (List.replicate e.run.toNat e.prev) ∧ Tracks t e.prev e.cache m := by
  by_cases hz : e.run = 0#6
  · have hzero : e.run.toNat = 0 := congrArg BitVec.toNat hz
    rw [hzero, Nat.zero_add] at hs
    rw [flushed_eq_nil hz, hzero]
    exact ⟨s, .refl s, hs⟩
  · obtain ⟨hpred, hwf⟩ := run_pred he hz
    rw [flushed_eq_encode_run hz] at hb ⊢
    rw [← hpred] at hs ⊢
    exact decodes_run _ hwf hs hb

/-- The opcode of a pixel that differs from `prev` gives the pixel back (R138). -/
theorem decodes_chosen {s : State} {e : Enc} {m : Nat} (cur : Pixel) (hs : Tracks s e.prev e.cache (1 + m))
    (hb : InpHasAtPc s (encode (chosen e cur).1)) :
    ∃ t, DecodesTo s t (encode (chosen e cur).1) [cur] ∧ Tracks t cur (chosen e cur).2 m := by
  obtain ⟨t, hx, hprev, hcache, -, he, hpc⟩ := exec_chosen (cur := cur) (hs.owes (by omega)) hs.prev hs.cache
  exact ⟨t, decodesTo_of_exec hs Nat.one_pos (chosen_wellFormed e cur) hb hx he hpc hcache hprev⟩

/-! What ENC appends for the rest of an image is read back -/

/-- Every DEC that agrees with ENC decodes the bytes `bs` to the pending run and the pixels `rest`, the last it owes. -/
def ReadsBack (e : Enc) (bs : List Byte) (rest : List Pixel) : Prop :=
  ∀ s, Tracks s e.prev e.cache (e.run.toNat + rest.length) → InpHasAtPc s bs →
    ∃ t, DecodesTo s t bs (List.replicate e.run.toNat e.prev ++ rest) ∧ t.dec.phase = .done

/-- At the end of the image no run is pending (R134). -/
theorem readsBack_nil {e : Enc} (h : e.run = 0#6) : ReadsBack e [] [] := by
  intro s hs _
  simp only [h] at hs ⊢
  exact ⟨s, .refl s, hs.done⟩

/-- A first part of the stream that emits the pending run and the pixel, and then the rest. -/
theorem readsBack_append {e e' : Enc} {bs cs : List Byte} {cur : Pixel} {rest : List Pixel} (hrun : e'.run = 0#6)
    (hfirst : ∀ s, Tracks s e.prev e.cache (e.run.toNat + 1 + rest.length) → InpHasAtPc s bs →
      ∃ t, DecodesTo s t bs (List.replicate e.run.toNat e.prev ++ [cur]) ∧ Tracks t e'.prev e'.cache rest.length)
    (h : ReadsBack e' cs rest) : ReadsBack e (bs ++ cs) (cur :: rest) := by
  intro s hs hb
  rw [List.length_cons, Nat.add_comm rest.length, ← Nat.add_assoc] at hs
  obtain ⟨t, hst, ht⟩ := hfirst s hs hb.left
  obtain ⟨u, htu, hdone⟩ := h t (by simpa [hrun] using ht) (hb.right hst.inp hst.pc)
  refine ⟨u, ?_, hdone⟩
  simpa [hrun] using hst.trans htu

/-- A pixel equal to `prev` that is counted joins the pending run (R122). -/
theorem readsBack_counted {e e' : Enc} {bs : List Byte} {rest : List Pixel} (hprev : e'.prev = e.prev)
    (hcache : e'.cache = e.cache) (hrun : e'.run.toNat = e.run.toNat + 1) (h : ReadsBack e' bs rest) :
    ReadsBack e bs (e.prev :: rest) := by
  unfold ReadsBack at h ⊢
  rw [hprev, hcache, hrun] at h
  simpa [List.replicate_succ', Nat.add_assoc, Nat.add_comm 1] using h

/-- A pixel equal to `prev` whose step flushes the run ends it (R123). -/
theorem readsBack_flushed {e e' : Enc} {bs : List Byte} {rest : List Pixel} (hle : e.run.toNat ≤ 61)
    (hprev : e'.prev = e.prev) (hcache : e'.cache = e.cache) (hrun : e'.run = 0#6) (h : ReadsBack e' bs rest) :
    ReadsBack e (encode (.run e.run) ++ bs) (e.prev :: rest) := by
  refine readsBack_append hrun (fun s hs hb => ?_) h
  have hwf : (Instr.run e.run).wellFormed = true := decide_eq_true (Nat.lt_succ_of_le hle)
  rw [hprev, hcache, ← List.replicate_succ']
  exact decodes_run e.run hwf hs hb

/-- A pixel that differs from `prev`: the pending run, if there is one, and the pixel's own opcode (R124). -/
theorem readsBack_coded {e e' : Enc} {bs : List Byte} {cur : Pixel} {rest : List Pixel} (hle : e.run.toNat ≤ 61)
    (hprev : e'.prev = cur) (hcache : e'.cache = (chosen e cur).2) (hrun : e'.run = 0#6) (h : ReadsBack e' bs rest) :
    ReadsBack e (flushed e ++ encode (chosen e cur).1 ++ bs) (cur :: rest) := by
  refine readsBack_append hrun (fun s hs hb => ?_) h
  rw [Nat.add_assoc] at hs
  obtain ⟨t, hst, ht⟩ := decodes_flushed hle hs hb.left
  obtain ⟨u, htu, hu⟩ := decodes_chosen cur ht (hb.right hst.inp hst.pc)
  rw [hprev, hcache]
  exact ⟨u, hst.trans htu, hu⟩

/-! ENC on the rest of an image -/

/-- ENC, alone with an empty agenda and behind its header, has the pixels `rest` still to come. -/
structure Encoding (s : State) (rest : List Pixel) : Prop where
  agenda : s.agenda = []
  dec_ready : s.dec.ready = false
  inv : EncInv s.enc s.out
  phase : s.enc.phase = if rest.length = 0 then .done else .pixels
  count : s.enc.inCount.toNat + rest.length = s.enc.nTotal.toNat
  pixIn : ∀ k, k < rest.length → s.pixIn.read (s.enc.inCount.toNat + k) = rest[k]?

theorem Encoding.encHas {s : State} {cur : Pixel} {rest : List Pixel} (h : Encoding s (cur :: rest)) :
    EncHas s cur := by
  have hcount := h.count
  rw [List.length_cons] at hcount
  exact ⟨h.phase, h.pixIn 0 (Nat.succ_pos _), by omega, h.inv.run_le⟩

/-- The pixel step of the first pixel leaves the others to come. -/
theorem Encoding.next {s t : State} {cur : Pixel} {rest : List Pixel} (h : Encoding s (cur :: rest))
    (ht : runEvent .encTurn s = .next t) (hc : PixelConsumed s t cur) : step s = .next t ∧ Encoding t rest := by
  obtain ⟨hp, hread, -, -⟩ := h.encHas
  have hready : s.encReady = true := by simp [State.encReady, hp, hread]
  have hcount := h.count
  obtain ⟨-, hin, hphase, -, -, htotal, hpix, hagenda, hdec, -⟩ := hc
  rw [List.length_cons] at hcount
  have hlast : s.enc.inCount.toNat + 1 = s.enc.nTotal.toNat ↔ rest.length = 0 := by omega
  refine ⟨by rw [step_eq_encTurn h.agenda h.dec_ready hready, ht], ?_⟩
  exact {
    agenda := hagenda.trans h.agenda
    dec_ready := hdec ▸ h.dec_ready
    inv := by
      rw [runEvent_encTurn, if_pos hready] at ht
      exact encStep_encInv ht h.inv
    phase := by simp only [hphase, hlast]
    count := by rw [hin, htotal]; omega
    pixIn := fun k hk => by
      have := h.pixIn (k + 1) (Nat.succ_lt_succ hk)
      rwa [List.getElem?_cons_succ, Nat.add_comm k, ← Nat.add_assoc, ← hin, ← hpix] at this }

/-- ENC's turn on a pixel appends bytes that, before any that read back as the rest of the image, read back as the pixel
and that rest. -/
theorem encTurn_readsBack {s : State} {cur : Pixel} (hs : EncHas s cur) (rest : List Pixel) :
    ∃ t bs, runEvent .encTurn s = .next t ∧ PixelConsumed s t cur ∧ AppendsBytes s t bs ∧
      ∀ cs, ReadsBack t.enc cs rest → ReadsBack s.enc (bs ++ cs) (cur :: rest) := by
  have hle := hs.run_le
  by_cases hc : cur = s.enc.prev
  · subst hc
    obtain ⟨t, ht, hcons, hcache, hcase⟩ := equalPixelIsCountedOrFlushed s hs
    have hprev := hcons.1
    split at hcase
    · obtain ⟨happ, hrun⟩ := hcase
      rw [runByte_succ] at happ
      exact ⟨t, _, ht, hcons, happ, fun _ => readsBack_flushed hle hprev hcache hrun⟩
    · obtain ⟨happ, hrun⟩ := hcase
      exact ⟨t, _, ht, hcons, happ, fun _ => readsBack_counted hprev hcache hrun⟩
  · obtain ⟨t, ht, hcons, happ, hrun, hcache⟩ := encTurn_coded hs hc
    exact ⟨t, _, ht, hcons, happ, fun _ => readsBack_coded hle hcons.1 hcache hrun⟩

/-- ENC takes one step a pixel, is then in DONE, and every DEC that agrees with it reads back what it has appended. -/
theorem encoding_readsBack (rest : List Pixel) : ∀ s, Encoding s rest →
    ∃ t bs, Reaches rest.length s t ∧ t.enc.phase = .done ∧ AppendsBytes s t bs ∧ ReadsBack s.enc bs rest := by
  induction rest with
  | nil =>
    intro s h
    have hdone : s.enc.phase = .done := h.phase
    exact ⟨s, [], rfl, hdone, .refl s, readsBack_nil (h.inv.done hdone).2⟩
  | cons cur rest ih =>
    intro s h
    obtain ⟨t, bs, ht, hcons, happ, hback⟩ := encTurn_readsBack h.encHas rest
    obtain ⟨hstep, hnext⟩ := h.next ht hcons
    obtain ⟨u, cs, hreach, hdone, happ', hback'⟩ := ih t hnext
    exact ⟨u, bs ++ cs, ⟨t, hstep, hreach⟩, hdone, happ.trans happ', hback cs hback'⟩

/-! Both headers -/

/-- ENC after its start command on `px`, from power-on. -/
def encStarted (w h : Dim) (px : List Pixel) : State :=
  { State.reset with enc := Enc.started w h, pixIn := Memory.ofList px }

/-- DEC after its start command on `bytes`, from power-on. -/
def decStarted (bytes : List Byte) : State :=
  { State.reset with dec := Dec.started, inp := Memory.ofList bytes }

/-- The header record ENC writes (R100, R101). -/
def headerOf (w h : Dim) : Instr := .header w h Config.hdrChannels Config.hdrColorspace

/-- ENC's header step appends the header record, when it is the first that ENC emits (R100). -/
theorem appendsBytes_encHeaderStep {s : State} (h : s.enc.outLen = 0) :
    AppendsBytes s (encHeaderStep s) (encode (headerOf s.enc.width s.enc.height)) := by
  have hlen := Laws.EncodedLength.header s.enc.width s.enc.height Config.hdrChannels Config.hdrColorspace
  refine appendsBytes_writeList _ ?_ ?_ <;> rw [h]
  · rfl
  · rw [Nat.zero_add]
    exact hlen.symm

/-- Behind its header ENC has every pixel to come. -/
theorem encoding_encHeaderStep (w h : Dim) (px : List Pixel) (hpx : px.length = w.toNat * h.toNat) :
    Encoding (encHeaderStep (encStarted w h px)) px where
  agenda := rfl
  dec_ready := rfl
  inv := encInv_encHeaderStep (encInv_started w h) rfl
  phase := by
    have hzero : pixelTotal w h = 0#64 ↔ px.length = 0 := by rw [pixelTotal_eq_zero_iff, hpx]
    exact if_congr hzero rfl rfl
  count := by
    have htotal := pixelTotal_toNat w h
    rw [← hpx] at htotal
    exact (Nat.zero_add _).trans htotal.symm
  pixIn := fun k _ => by
    show (Memory.ofList px).read (0 + k) = px[k]?
    rw [Nat.zero_add, Memory.read_ofList]

/-- ENC started on an image is behind its header after two steps. -/
theorem reaches_encHeaderStep (w h : Dim) (px : List Pixel) :
    Reaches 2 { State.reset with agenda := [.encStart w h px] } (encHeaderStep (encStarted w h px)) :=
  ⟨encStarted w h px, rfl, _, rfl, rfl⟩

/-- DEC behind ENC's header record of `w` by `h` pixels, at the front of `bytes`. -/
def decBehindHeader (w h : Dim) (bytes : List Byte) : State :=
  { decStarted bytes with dec := { Dec.started with
    width := w, height := h, channels := Config.hdrChannels, colorspace := Config.hdrColorspace,
    nTotal := pixelTotal w h, pc := 14, phase := if pixelTotal w h = 0#64 then .done else .opcodes } }

/-- The magic step passes ENC's header (R102). -/
theorem step_decStarted (w h : Dim) (bs : List Byte) :
    step (decStarted (encode (headerOf w h) ++ bs)) =
      .next { decStarted (encode (headerOf w h) ++ bs) with dec := { Dec.started with pc := 4 } } := by
  have hmagic : BeginsWithMagic (Memory.ofList (encode (headerOf w h) ++ bs)) :=
    beginsWithMagic_iff_window.mpr (Memory.window_ofList _ 0 4)
  rw [step_eq_decTurn rfl rfl, decTurn_eq_magicStep rfl rfl]
  exact congrArg _ (magicStep_of_magic hmagic)

/-- The dimensions step latches the fields of ENC's header (R103). -/
theorem step_behind_magic (w h : Dim) (bs : List Byte) :
    step { decStarted (encode (headerOf w h) ++ bs) with dec := { Dec.started with pc := 4 } } =
      .next (decBehindHeader w h (encode (headerOf w h) ++ bs)) := by
  have hwindow : (Memory.ofList (encode (headerOf w h) ++ bs)).window 4 10 =
      bytes32 w ++ (bytes32 h ++ [Config.hdrChannels, Config.hdrColorspace]) := Memory.window_ofList _ 4 10
  have hdims := decodeDims_eq_ok_iff.mpr ⟨w, h, _, _, rfl, hwindow⟩
  rw [step_eq_decTurn rfl rfl, decTurn_eq_execFetched_fetchDims rfl rfl, fetchDims]
  simp only [decStarted, hdims, execFetched]
  exact exec_header w h _ _ rfl rfl

/-- DEC started on a stream that begins with ENC's header is behind it after three steps. -/
theorem reaches_decBehindHeader (w h : Dim) (bs : List Byte) :
    Reaches 3 { State.reset with agenda := [.decStart (encode (headerOf w h) ++ bs)] }
      (decBehindHeader w h (encode (headerOf w h) ++ bs)) :=
  ⟨_, rfl, _, step_decStarted w h bs, _, step_behind_magic w h bs, rfl⟩

/-- Behind the header DEC agrees with ENC behind its own: both hold what their start commands left. -/
theorem tracks_decBehindHeader (w h : Dim) (px : List Pixel) (hpx : px.length = w.toNat * h.toNat)
    (bytes : List Byte) : Tracks (decBehindHeader w h bytes) Pixel.black Cache.zero (0 + px.length) where
  agenda := rfl
  phase := if_congr eq_comm rfl rfl
  owed := by
    have htotal := pixelTotal_toNat w h
    rw [← hpx] at htotal
    rw [Nat.zero_add]
    exact (Nat.zero_add _).trans htotal.symm
  prev := rfl
  cache := rfl

/-- What follows the header is what DEC reads next. -/
theorem inpHasAtPc_behindHeader (w h : Dim) (bs : List Byte) :
    InpHasAtPc (decBehindHeader w h (encode (headerOf w h) ++ bs)) bs := by
  intro k _
  show (Memory.ofList (encode (headerOf w h) ++ bs)).read (14 + k) = bs[k]?
  have hlen : (encode (headerOf w h)).length = 14 := Laws.EncodedLength.header _ _ _ _
  rw [Memory.read_ofList, List.getElem?_append_right (by omega), hlen, Nat.add_sub_cancel_left]

/-- In DONE, ENC's result is everything it has appended since its start. -/
theorem encodeResult_of_appends {s t : State} {bs : List Byte} (hs : s.enc.outLen = 0) (h : AppendsBytes s t bs)
    (hdone : t.enc.phase = .done) : t.encodeResult = some bs := by
  obtain ⟨hread, hlen⟩ := h
  rw [hs] at hread hlen
  rw [State.encodeResult, hdone, hlen, Nat.zero_add]
  exact congrArg some (Memory.Appends.window hread)

/-- In DONE, DEC's result is everything it has emitted, when that is what the header promised. -/
theorem decodeResult_of_decodesTo {s t : State} {bs : List Byte} {ps : List Pixel} (hs : s.dec.outCount.toNat = 0)
    (h : DecodesTo s t bs ps) (htotal : s.dec.nTotal.toNat = ps.length) (hdone : t.dec.phase = .done) :
    t.decodeResult = some (ps, s.dec.width, s.dec.height) := by
  have hpixels := h.pixels
  rw [hs] at hpixels
  rw [State.decodeResult, hdone, h.total, htotal, h.width, h.height]
  exact congrArg (fun l => some (l, _, _)) hpixels.window

/-- Settles O48: ENC appends its header and then bytes that read back as the image, and DEC reads both. -/
theorem decodingAnEncodedImageReturnsIt : Obligations.DecodingAnEncodedImageReturnsIt := by
  intro w h px hpx
  obtain ⟨t, bs, hreach, hdone, happ, hback⟩ := encoding_readsBack px _ (encoding_encHeaderStep w h px hpx)
  have hall := (appendsBytes_encHeaderStep (s := encStarted w h px) rfl).trans happ
  obtain ⟨u, hdec, hudone⟩ := hback _ (tracks_decBehindHeader w h px hpx _) (inpHasAtPc_behindHeader w h bs)
  obtain ⟨k, hk⟩ := hdec.reaches
  have htotal : (pixelTotal w h).toNat = px.length := by rw [pixelTotal_toNat, hpx]
  refine ⟨t, _, reaches_trans (reaches_encHeaderStep w h px) hreach, hdone, encodeResult_of_appends rfl hall hdone,
    3 + k, u, reaches_trans (reaches_decBehindHeader w h bs) hk, hudone, ?_, ?_⟩
  · exact decodeResult_of_decodesTo rfl hdec htotal hudone
  · rw [hdec.pc, happ.2]
    rfl

end Sys2Proof.Machine
end

section
/-! PROOFS. The opcodes of the decoder: what it fetches, what each opcode does, and when it faults. -/

namespace Sys2Proof.Machine

/-! Reconstruction (O4) -/

/-- `reconstruct` adds each delta to its own channel, modulo 256 (R158). -/
theorem isSumMod256_reconstruct (q : Pixel) (d : Delta) : IsSumMod256 q (reconstruct q d) d.r d.g d.b :=
  ⟨addChannel_toNat q.r d.r, addChannel_toNat q.g d.g, addChannel_toNat q.b d.b⟩

/-- Settles O4: each channel is its own sum modulo 256. -/
theorem reconstructWrapsEachChannel : Obligations.ReconstructWrapsEachChannel := isSumMod256_reconstruct

/-! What the step runs (O18) -/

/-- A DEC that has a step takes it when the agenda is empty, and when its turn is next. -/
theorem step_runs_decTurn {s : State} {f : State → Result} (hr : s.dec.ready = true)
    (h : ∀ es, runEvent .decTurn { s with agenda := es } = f { s with agenda := es }) :
    runEvent .decTurn s = f s ∧ (s.agenda = [] → step s = f s) ∧
      ∀ es, s.agenda = .decTurn :: es → step s = f { s with agenda := es } :=
  ⟨h s.agenda, fun ha => (step_eq_decTurn ha hr).trans (h s.agenda), fun es ha => (step_of_cons ha).trans (h es)⟩

/-- Bytes of IN at `pc` that begin with an opcode are that opcode's turn (R150). -/
theorem decTurn_of_beginsWithOpcode {s : State} {bs rest : List Byte} {i : Instr} (hp : s.dec.phase = .opcodes)
    (hb : InpHasAtPc s bs) (h : BeginsWithOpcode bs i rest) : runEvent .decTurn s = exec i s := by
  obtain ⟨rfl, hwf, hop⟩ := h
  exact decTurn_eq_exec hp hop hwf hb.left

/-- The header record at the front of IN is what the dimensions step runs (R103). -/
theorem decTurn_of_decodeHeader {s : State} {bs rest : List Byte} {i : Instr} (hp : s.dec.phase = .header)
    (hpc : s.dec.pc = 4) (hlen : bs.length = 14) (hb : ∀ k, k < 14 → s.inp.read k = bs[k]?)
    (h : decodeHeader bs = .ok (i, rest)) : runEvent .decTurn s = exec i s := by
  obtain ⟨w, ht, ch, cs, rfl, rfl⟩ := decodeHeader_eq_ok_iff.mp h
  have hdrop : (encode (.header w ht ch cs) ++ rest).drop 4 = bytes32 w ++ (bytes32 ht ++ (ch :: cs :: rest)) := rfl
  have hwindow := Memory.window_eq (m := s.inp) ((encode (.header w ht ch cs) ++ rest).drop 4) 4 fun k hk => by
    rw [List.length_drop] at hk
    rw [List.getElem?_drop, hb _ (by omega)]
  rw [List.length_drop, hlen, hdrop] at hwindow
  have hfetch : fetchDims s = .ok (.header w ht ch cs, rest) :=
    decodeDims_eq_ok_iff.mpr ⟨w, ht, ch, cs, rfl, hwindow⟩
  rw [decTurn_eq_execFetched_fetchDims hp hpc, hfetch, execFetched]

/-- Settles O18: in OPCODES the bytes at `pc` begin with the opcode, and at position 4 of HEADER the ten bytes behind
the magic are the dimensions. -/
theorem stepRunsTheDecodedInstruction : Obligations.StepRunsTheDecodedInstruction := by
  refine ⟨?_, ?_⟩
  · intro s bs i rest hp _ hb h
    have hready : s.dec.ready = true := by simp [Dec.ready, hp]
    exact step_runs_decTurn hready fun es =>
      decTurn_of_beginsWithOpcode (s := { s with agenda := es }) hp hb (decodeOpcode_eq_ok_iff.mp h)
  · intro s bs i rest hp hpc hlen hb h
    have hready : s.dec.ready = true := by simp [Dec.ready, hp, hpc]
    exact step_runs_decTurn hready fun es =>
      decTurn_of_decodeHeader (s := { s with agenda := es }) hp hpc hlen hb h

/-! Truncated opcodes (R163) -/

/-- What an opcode step sees first is the byte at its place. -/
theorem Memory.head?_window {α : Type} (m : Memory α) (a : Nat) {n : Nat} (hn : 0 < n) :
    (m.window a n).head? = m.read a := by
  obtain ⟨n, rfl⟩ := Nat.exists_eq_add_one.mpr hn
  rw [Memory.window]
  cases m.read a <;> rfl

/-- In a sequence without holes the positions without an element are those from its length on. -/
theorem Memory.read_eq_none_iff {α : Type} {m : Memory α} (h : m.dense) (a : Nat) : m.read a = none ↔ m.length ≤ a := by
  rw [← Option.not_isSome_iff_eq_none, Memory.read_isSome_of_dense h, Nat.not_lt]

/-- Bytes that begin with an opcode are not rejected. -/
theorem BeginsWithOpcode.decodeOpcode_ne_error {bs rest : List Byte} {i : Instr} (h : BeginsWithOpcode bs i rest)
    (e : DecodeError) : decodeOpcode bs ≠ .error e := by
  simp [h.decodeOpcode_eq]

/-- Bytes end before their opcode does when there is none, or the payload of an RGB or a LUMA is not complete (R55). -/
theorem decodeOpcode_eq_endOfStream_iff (bs : List Byte) : decodeOpcode bs = .error .endOfStream ↔
    bs.head? = none ∨ (bs.head? = some 0xfe#8 ∧ bs.length < 4) ∨
      ∃ b : Byte, bs.head? = some b ∧ 0x80 ≤ b.toNat ∧ b.toNat ≤ 0xbf ∧ bs.length < 2 := by
  match bs with
  | [] => exact iff_of_true rfl (.inl rfl)
  | b :: bs =>
    simp only [List.head?_cons, reduceCtorEq, false_or, Option.some.injEq, exists_eq_left', List.length_cons]
    constructor
    · intro h
      have hb := b.isLt
      rcases (by omega : b.toNat ≤ 0x3f ∨ (0x40 ≤ b.toNat ∧ b.toNat ≤ 0x7f) ∨ (0x80 ≤ b.toNat ∧ b.toNat ≤ 0xbf) ∨
          (0xc0 ≤ b.toNat ∧ b.toNat ≤ 0xfd) ∨ b.toNat = 0xfe ∨ b.toNat = 0xff) with
        hr | ⟨h0, h1⟩ | ⟨h0, h1⟩ | ⟨h0, h1⟩ | hr | hr
      · exact absurd h ((beginsWithOpcode_index hr bs).decodeOpcode_ne_error _)
      · exact absurd h ((beginsWithOpcode_diff h0 h1 bs).decodeOpcode_ne_error _)
      · match bs with
        | [] => exact .inr ⟨h0, h1, Nat.lt_succ_self _⟩
        | b2 :: rest => exact absurd h ((beginsWithOpcode_luma h0 h1 b2 rest).decodeOpcode_ne_error _)
      · exact absurd h ((beginsWithOpcode_run h0 h1 bs).decodeOpcode_ne_error _)
      · obtain rfl : b = 0xfe#8 := BitVec.eq_of_toNat_eq hr
        match bs with
        | [] | [_] | [_, _] => exact .inl ⟨rfl, by simp⟩
        | r :: g :: b :: rest => exact absurd h ((beginsWithOpcode_rgb r g b rest).decodeOpcode_ne_error _)
      · obtain rfl : b = 0xff#8 := BitVec.eq_of_toNat_eq hr
        exact absurd h ((beginsWithOpcode_rgba bs).decodeOpcode_ne_error _)
    · rintro (⟨rfl, hlen⟩ | ⟨h0, h1, hlen⟩)
      · match bs with
        | [] | [_] | [_, _] => rfl
        | _ :: _ :: _ :: _ => simp only [List.length_cons] at hlen; omega
      · obtain rfl : bs = [] := List.length_eq_zero_iff.mp (by omega)
        exact decodeOpcode_luma_short h0 h1

/-- No first byte at `pc`, or a payload that passes the end of IN. -/
def TruncatedAtPc (s : State) : Prop :=
  s.inp.length ≤ s.dec.pc ∨ (s.inp.read s.dec.pc = some 0xfe#8 ∧ s.inp.length < s.dec.pc + 4) ∨
    ∃ b : Byte, s.inp.read s.dec.pc = some b ∧ 0x80 ≤ b.toNat ∧ b.toNat ≤ 0xbf ∧ s.inp.length < s.dec.pc + 2

theorem fetchOpcode_eq_endOfStream_iff {s : State} (hd : s.inp.dense) :
    fetchOpcode s = .error .endOfStream ↔ TruncatedAtPc s := by
  have hfour : 0 < Config.maxOpcodeBytes := Nat.succ_pos 3
  have hrgb : min Config.maxOpcodeBytes (s.inp.length - s.dec.pc) < 4 ↔ s.inp.length < s.dec.pc + 4 := by
    simp only [Config.maxOpcodeBytes]; omega
  have hluma : min Config.maxOpcodeBytes (s.inp.length - s.dec.pc) < 2 ↔ s.inp.length < s.dec.pc + 2 := by
    simp only [Config.maxOpcodeBytes]; omega
  simp only [fetchOpcode, decodeOpcode_eq_endOfStream_iff, Memory.head?_window _ _ hfour, Memory.window_length hd,
    Memory.read_eq_none_iff hd, hrgb, hluma, TruncatedAtPc]

/-- In OPCODES, DEC's turn runs what it fetches at `pc` (R150). -/
theorem decTurn_eq_execFetched_fetchOpcode {s : State} (hp : s.dec.phase = .opcodes) :
    runEvent .decTurn s = execFetched (fetchOpcode s) s := by
  simp [runEvent_decTurn, Dec.ready, decStep, hp]

/-- A truncated opcode is a fault at the opcode, with no other effect (R163, R189). -/
theorem decTurn_of_truncatedAtPc {s : State} (hp : s.dec.phase = .opcodes) (hd : s.inp.dense) (h : TruncatedAtPc s) :
    ∃ t, runEvent .decTurn s = .next t ∧ FaultEntered s t .unexpectedEndOfStream := by
  rw [decTurn_eq_execFetched_fetchOpcode hp, (fetchOpcode_eq_endOfStream_iff hd).mpr h]
  exact ⟨_, rfl, faultEntered_takeFault s _⟩

/-! The cause a step records -/

/-- Of the instructions only RGBA records a cause (R153). -/
theorem exec_cause {i : Instr} {s t : State} (h : exec i s = .next t) :
    t.dec.cause = s.dec.cause ∨ (i = .rgba ∧ s.dec.phase = .opcodes ∧ t.dec.cause = .unsupportedOpcode) := by
  rcases exec_cases h with ⟨_, _, _, _, _, _, _, rfl⟩ |
    ⟨hp, ⟨hi, rfl⟩ | ⟨_, _, _, rfl⟩ | ⟨_, _, rfl⟩ | ⟨l, _, rfl⟩⟩
  · exact .inl rfl
  · exact .inr ⟨hi, hp, rfl⟩
  · exact .inl rfl
  · exact .inl rfl
  · exact .inl (by simp [(emitPixels_fields (min (runLength l) s.dec.owed) s.dec.prev s).1])

/-- Everything a step of DEC can do to the cause: keep it, record why bytes are no instruction, or record an RGBA that
it fetched in OPCODES. -/
theorem decStep_cause {s t : State} (h : decStep s = .next t) :
    t.dec.cause = s.dec.cause ∨ (∃ e, t.dec.cause = faultOf e) ∨
      (s.dec.phase = .opcodes ∧ ∃ rest, fetchOpcode s = .ok (.rgba, rest)) := by
  rcases decStep_cases h with ⟨_, _, rfl⟩ | ⟨hp, _, ⟨e, _, rfl⟩ | ⟨_, _, _, hx⟩⟩ |
    ⟨hp, ⟨e, _, rfl⟩ | ⟨_, rest, hf, hx⟩⟩
  · rcases magicStep_cases s with ⟨_, _, heq⟩ | ⟨e, _, heq⟩ <;> rw [heq]
    · exact .inl rfl
    · exact .inr (.inl ⟨e, rfl⟩)
  · exact .inr (.inl ⟨e, rfl⟩)
  · rcases exec_cause hx with hc | ⟨_, hop, _⟩
    · exact .inl hc
    · rw [hp] at hop
      cases hop
  · exact .inr (.inl ⟨e, rfl⟩)
  · rcases exec_cause hx with hc | ⟨rfl, _, _⟩
    · exact .inl hc
    · exact .inr (.inr ⟨hp, rest, hf⟩)

/-- Settles O28: a truncated opcode faults; a fetched instruction does not record this cause, so only a fetch that
failed does. -/
theorem truncatedOpcodeFaults : Obligations.TruncatedOpcodeFaults := by
  intro s hp hd
  refine ⟨decTurn_of_truncatedAtPc hp hd, fun t h hs ht => ?_⟩
  rw [decTurn_eq_execFetched_fetchOpcode hp] at h
  cases hf : fetchOpcode s with
  | error e =>
    rw [decodeOpcode_error hf] at hf
    exact (fetchOpcode_eq_endOfStream_iff hd).mp hf
  | ok r =>
    rw [hf] at h
    rcases exec_cause h with hc | ⟨_, _, hc⟩ <;> rw [hc] at ht
    · exact absurd ht hs
    · cases ht

/-! RGBA (O22) -/

theorem exec_rgba {s : State} (hp : s.dec.phase = .opcodes) :
    exec .rgba s = .next (takeFault .unsupportedOpcode s) := if_pos hp

theorem inpHasAtPc_singleton {s : State} {b : Byte} (h : s.inp.read s.dec.pc = some b) : InpHasAtPc s [b]
  | 0, _ => h

/-- An RGBA is fetched where `0xff` stands at `pc` (R153). -/
theorem read_of_fetchOpcode_rgba {s : State} {rest : List Byte} (h : fetchOpcode s = .ok (.rgba, rest)) :
    s.inp.read s.dec.pc = some 0xff#8 := by
  obtain ⟨hwindow, -⟩ := decodeOpcode_eq_ok_iff.mp h
  obtain ⟨hread, -⟩ := Memory.window_succ_eq_cons_iff.mp hwindow
  exact hread

/-- A step of DEC that brings UnsupportedOpcode has fetched `0xff` in OPCODES. -/
theorem decStep_unsupportedOpcode {s t : State} (h : decStep s = .next t) (hs : s.dec.cause ≠ .unsupportedOpcode)
    (ht : t.dec.cause = .unsupportedOpcode) : s.dec.phase = .opcodes ∧ s.inp.read s.dec.pc = some 0xff#8 := by
  rcases decStep_cause h with hc | ⟨e, hc⟩ | ⟨hp, _, hf⟩
  · exact absurd (hc.symm.trans ht) hs
  · rw [ht] at hc
    cases e <;> cases hc
  · exact ⟨hp, read_of_fetchOpcode_rgba hf⟩

/-- Settles O22: fault entry, the byte decoded whatever follows, and the one kind of step that brings the cause. -/
theorem rgbaRaisesUnsupportedOpcode : Obligations.RgbaRaisesUnsupportedOpcode := by
  refine ⟨fun s hp => ⟨_, exec_rgba hp, faultEntered_takeFault s _⟩,
    fun rest => (beginsWithOpcode_rgba rest).decodeOpcode_eq, fun s hp hb => ?_, fun s t h hs ht => ?_⟩
  · exact decTurn_of_beginsWithOpcode hp (inpHasAtPc_singleton hb) (beginsWithOpcode_rgba [])
  · rcases step_cases h with ⟨w, hgt, px, -, -, rfl⟩ | ⟨bytes, -, -, rfl⟩ | ⟨-, -, he | hd | rfl⟩
    · exact absurd ht hs
    · cases ht
    · rw [(encStep_other he).1] at ht
      exact absurd ht hs
    · exact decStep_unsupportedOpcode (s := s.taken) hd hs ht
    · exact absurd ht hs

/-! The opcodes that deliver a pixel (O21, O25, O26) -/

/-- RGB, DIFF and LUMA deliver the pixel they form (R152, R156, R157). -/
theorem exec_delivered {i : Instr} {s : State} {p : Pixel} {len : Nat} (hp : s.dec.phase = .opcodes)
    (hd : Instr.delivered s.dec.prev i = some (p, len)) :
    exec i s = .next (finishOpcode len (deliverPixel p s)) := by
  cases i with
  | rgb r g b => cases hd; exact opcodeStep_next hp
  | diff fr fg fb => cases hd; exact opcodeStep_next hp
  | luma fdg frg fbg => cases hd; exact opcodeStep_next hp
  | _ => cases hd

/-- With a pixel owed, they do with it the whole of what the spec says (R159, R160). -/
theorem exec_delivers {i : Instr} {s : State} {p : Pixel} {len : Nat} (ho : Owes s)
    (hd : Instr.delivered s.dec.prev i = some (p, len)) : ∃ t, exec i s = .next t ∧ Delivers s t p len :=
  ⟨_, exec_delivered ho.1 hd, delivers_finish ho p len⟩

/-- A field of a byte as a number. -/
theorem extractLsb'_eq_ofNat (b : Byte) (k n : Nat) : b.extractLsb' k n = BitVec.ofNat n (b.toNat / 2 ^ k) := by
  rw [BitVec.extractLsb', Nat.shiftRight_eq_div_pow]

/-- Settles O21: the payload is what is delivered, and a payload cut short is a truncated opcode. -/
theorem rgbDeliversItsPayload : Obligations.RgbDeliversItsPayload :=
  ⟨fun _ _ _ _ ho => exec_delivers ho rfl, fun r g b rest => (beginsWithOpcode_rgb r g b rest).decodeOpcode_eq,
    fun _ hp hd hb hlt => decTurn_of_truncatedAtPc hp hd (.inr (.inl ⟨hb, hlt⟩))⟩

/-- Settles O25: the pixel is `prev` plus the deltas of the three fields, which lie in their places. -/
theorem diffAddsSmallDeltas : Obligations.DiffAddsSmallDeltas := by
  refine ⟨fun s fr fg fb ho => ?_, fun b rest h0 h1 => ?_⟩
  · obtain ⟨t, hx, hdel⟩ := exec_delivers (i := .diff fr fg fb) ho rfl
    exact ⟨t, _, hx, isSumMod256_reconstruct s.dec.prev (diffDelta fr fg fb), hdel⟩
  · simpa [extractLsb'_eq_ofNat] using (beginsWithOpcode_diff h0 h1 rest).decodeOpcode_eq

/-- Settles O26: the pixel is `prev` plus the deltas taken from green, the fields lie in their places, and a LUMA cut
short is a truncated opcode. -/
theorem lumaAddsDeltasFromGreen : Obligations.LumaAddsDeltasFromGreen := by
  refine ⟨fun s fdg frg fbg ho => ?_, fun b b2 rest h0 h1 => ?_, fun s b hp hd hb h0 h1 hlt => ?_⟩
  · obtain ⟨t, hx, hdel⟩ := exec_delivers (i := .luma fdg frg fbg) ho rfl
    exact ⟨t, _, hx, isSumMod256_reconstruct s.dec.prev (lumaDelta fdg frg fbg), hdel⟩
  · simpa [extractLsb'_eq_ofNat] using (beginsWithOpcode_luma h0 h1 b2 rest).decodeOpcode_eq
  · exact decTurn_of_truncatedAtPc hp hd (.inr (.inr ⟨b, hb, h0, h1, hlt⟩))

/-! INDEX and RUN (O23, O24) -/

/-- INDEX shows the slot its key names and does not write the cache (R155). -/
theorem exec_index {s : State} (key : BitVec 6) (ho : Owes s) :
    ∃ t, exec (.index key) s = .next t ∧ EmitsPixels s t (s.dec.cache.read key) 1 ∧
      t.dec.prev = s.dec.cache.read key ∧ t.dec.cache = s.dec.cache ∧ AdvancesBy s t 1 ∧ OpcodeFrame s t := by
  have hx : exec (.index key) s = .next (finishOpcode 1 (showPixel (s.dec.cache.read key) s)) := opcodeStep_next ho.1
  have hemits := emitsPixels_one (t := finishOpcode 1 (showPixel (s.dec.cache.read key) s)) ho rfl rfl
  obtain ⟨hframe, hphase⟩ := exec_frame_of_emits hx ho.1 hemits Nat.one_pos
  exact ⟨_, hx, hemits, rfl, rfl, ⟨rfl, hphase⟩, hframe⟩

/-- Settles O24: the slot is shown and the cache is not written; the key is the byte. -/
theorem indexEmitsTheSlotOfItsKey : Obligations.IndexEmitsTheSlotOfItsKey := by
  refine ⟨fun s key => exec_index key, fun b rest h => ?_⟩
  simpa [extractLsb'_eq_ofNat] using (beginsWithOpcode_index h rest).decodeOpcode_eq

/-- A RUN repeats at least one pixel while one is owed (R154, R214). -/
theorem runClipped_pos {s : State} (len1 : BitVec 6) (ho : Owes s) : 0 < min (runLength len1) s.dec.owed := by
  have howed := ho.2
  simp only [runLength, Dec.owed]
  omega

/-- RUN emits `prev` as often as its clipped length says, and writes neither `prev` nor the cache (R154). -/
theorem exec_run {s : State} (len1 : BitVec 6) (ho : Owes s) :
    ∃ t, exec (.run len1) s = .next t ∧ EmitsPixels s t s.dec.prev (min (runLength len1) s.dec.owed) ∧
      t.dec.prev = s.dec.prev ∧ t.dec.cache = s.dec.cache ∧ AdvancesBy s t 1 ∧ OpcodeFrame s t := by
  have hx : exec (.run len1) s =
      .next (finishOpcode 1 (emitPixels (min (runLength len1) s.dec.owed) s.dec.prev s)) := opcodeStep_next ho.1
  have hemits := emitsPixels_finish_emitPixels 1 s.dec.prev (min_le_right (runLength len1) s.dec.owed) ho
  obtain ⟨hframe, hphase⟩ := exec_frame_of_emits hx ho.1 hemits (runClipped_pos len1 ho)
  have hdec := (emitPixels_fields (min (runLength len1) s.dec.owed) s.dec.prev s).1
  exact ⟨_, hx, hemits, by simp [hdec], by simp [hdec], ⟨by simp [hdec], hphase⟩, hframe⟩

/-- Settles O23: `prev` is repeated up to the pixel count; the field is the byte's value above `0xc0`. -/
theorem runRepeatsThePreviousPixel : Obligations.RunRepeatsThePreviousPixel := by
  refine ⟨fun s len1 => exec_run len1, fun b rest h0 h1 => ?_⟩
  have hfield : b.extractLsb' 0 6 = BitVec.ofNat 6 (b.toNat - 0xc0) := by
    rw [← (run_byte_of_range h0 h1).2, BitVec.ofNat_toNat, BitVec.setWidth_eq]
  rw [← hfield]
  exact (beginsWithOpcode_run h0 h1 rest).decodeOpcode_eq

/-! What every opcode keeps (O27) -/

/-- The last of the pixels emitted stands before the new count. -/
theorem EmitsPixels.last {s t : State} {p : Pixel} {n : Nat} (h : EmitsPixels s t p n) (hn : 0 < n) :
    s.dec.outCount.toNat < t.dec.outCount.toNat ∧ t.pixOut.read (t.dec.outCount.toNat - 1) = some p := by
  obtain ⟨hread, hcount⟩ := h
  exact ⟨by omega, by rw [hread, if_pos (by omega)]⟩

/-- The opcodes that deliver a pixel are RGB, DIFF and LUMA. -/
theorem delivered_kind {i : Instr} {q p : Pixel} {len : Nat} (h : Instr.delivered q i = some (p, len)) :
    (∃ r g b, i = .rgb r g b) ∨ (∃ fr fg fb, i = .diff fr fg fb) ∨ ∃ fdg frg fbg, i = .luma fdg frg fbg := by
  cases i with
  | rgb r g b => exact .inl ⟨r, g, b, rfl⟩
  | diff fr fg fb => exact .inr (.inl ⟨fr, fg, fb, rfl⟩)
  | luma fdg frg fbg => exact .inr (.inr ⟨fdg, frg, fbg, rfl⟩)
  | _ => cases h

/-- Settles O27: what each opcode emits last is the `prev` it leaves, and only a delivered pixel is cached. -/
theorem opcodesKeepPrevAndCacheRules : Obligations.OpcodesKeepPrevAndCacheRules := by
  intro i s t ho h hnf
  rcases exec_cases h with ⟨_, _, _, _, _, hp, _⟩ | ⟨_, ⟨_, rfl⟩ | ⟨p, len, hd, -⟩ | ⟨key, rfl, -⟩ | ⟨len1, rfl, -⟩⟩
  · rw [ho.1] at hp
    cases hp
  · exact absurd rfl hnf
  · obtain ⟨u, hx, rfl, hemits, hcache, -⟩ := exec_delivers ho hd
    obtain rfl : u = t := Host.Outcome.next.inj (hx.symm.trans h)
    obtain ⟨hlt, hlast⟩ := hemits.last Nat.one_pos
    exact ⟨hlt, hlast, .inl ⟨delivered_kind hd, hcache⟩⟩
  · obtain ⟨u, hx, hemits, hprev, hcache, -⟩ := exec_index key ho
    obtain rfl : u = t := Host.Outcome.next.inj (hx.symm.trans h)
    obtain ⟨hlt, hlast⟩ := hemits.last Nat.one_pos
    exact ⟨hlt, by rw [hlast, hprev], .inr (.inl ⟨⟨key, rfl⟩, hcache⟩)⟩
  · obtain ⟨u, hx, hemits, hprev, hcache, -⟩ := exec_run len1 ho
    obtain rfl : u = t := Host.Outcome.next.inj (hx.symm.trans h)
    obtain ⟨hlt, hlast⟩ := hemits.last (runClipped_pos len1 ho)
    exact ⟨hlt, by rw [hlast, hprev], .inr (.inr ⟨⟨len1, rfl⟩, hcache, hprev⟩)⟩

end Sys2Proof.Machine
end

section
/-! PROOFS. The end of a decode, and what each block's turn depends on. -/

namespace Sys2Proof.Machine

/-! Termination by count (O29) -/

/-- After an instruction DEC is in FAULT, DONE or OPCODES (R103, R150). -/
theorem exec_phase {i : Instr} {s t : State} (h : exec i s = .next t) :
    t.dec.phase = .fault ∨ t.dec.phase = .done ∨ t.dec.phase = .opcodes := by
  rcases exec_cases h with ⟨_, _, _, _, _, _, _, rfl⟩ |
    ⟨hp, ⟨_, rfl⟩ | ⟨_, _, _, rfl⟩ | ⟨_, _, rfl⟩ | ⟨l, _, rfl⟩⟩
  · exact .inr (ite_eq_or_eq _ _ _)
  · exact .inl rfl
  · exact .inr (hp ▸ ite_eq_or_eq _ _ _)
  · exact .inr (hp ▸ ite_eq_or_eq _ _ _)
  · rw [finishOpcode_dec, (emitPixels_fields (min (runLength l) s.dec.owed) s.dec.prev s).1]
    exact .inr (hp ▸ ite_eq_or_eq _ _ _)

/-- After what a fetch decoded, or failed to decode, DEC is in one of the same three phases (R163). -/
theorem execFetched_phase {d : Except DecodeError (Instr × List Byte)} {s t : State} (h : execFetched d s = .next t) :
    t.dec.phase = .fault ∨ t.dec.phase = .done ∨ t.dec.phase = .opcodes := by
  cases d with
  | error e => cases h; exact .inl rfl
  | ok r => exact exec_phase h

/-- The turn of DEC keeps DEC's half of the invariant. -/
theorem decTurn_decInv {s t : State} (h : runEvent .decTurn s = .next t) (hi : DecInv s.dec s.pixOut) :
    DecInv t.dec t.pixOut := by
  rw [runEvent_decTurn] at h
  split at h
  · exact decStep_decInv h hi
  · cases h; exact hi

/-- Settles O29: the invariant after the turn says what the count is in DONE and in OPCODES. -/
theorem terminationIsByCount : Obligations.TerminationIsByCount := by
  intro s t hi hp h
  have hti := decTurn_decInv h hi.dec
  have hphase : t.dec.phase = .fault ∨ t.dec.phase = .done ∨ t.dec.phase = .opcodes := by
    rcases hp with hp | ⟨hp, hpc⟩
    · rw [decTurn_eq_execFetched_fetchOpcode hp] at h
      exact execFetched_phase h
    · rw [decTurn_eq_execFetched_fetchDims hp hpc] at h
      exact execFetched_phase h
  rcases hphase with hf | hd | ho
  · exact .inl hf
  · exact .inr (.inl ⟨hd, hti.done hd, Dec.ready_eq_false (.inr (.inl hd))⟩)
  · exact .inr (.inr ⟨ho, (hti.opcodes ho).1⟩)

/-! DONE and FAULT (O33, O34) -/

/-- In DONE and in FAULT DEC has no step (R165). -/
theorem decStep_of_done_or_fault {s : State} (h : s.dec.phase = .done ∨ s.dec.phase = .fault) :
    decStep s = .fault .atRest := by
  rcases h with h | h <;> simp [decStep, h]

/-- Settles O33: DEC itself has no step there, and `dec_start` writes the whole of DEC. -/
theorem doneAndFaultAreLeftOnlyByStart : Obligations.DoneAndFaultAreLeftOnlyByStart := by
  intro s t h hp
  rcases step_cases h with ⟨w, ht, px, hs, -, rfl⟩ | ⟨bytes, hs, -, rfl⟩ | ⟨hnd, -, hblock⟩
  · refine ⟨fun _ => ⟨rfl, rfl, rfl⟩, ?_⟩
    rintro ⟨bytes, rest, ha⟩
    simp [ha] at hs
  · exact ⟨fun hnd => absurd (startsDecoder_of_head? hs) hnd,
      fun _ => ⟨rfl, rfl, rfl, rfl, Cache.read_zero, rfl, rfl, rfl, rfl, rfl, rfl, rfl, rfl, rfl⟩⟩
  · refine ⟨fun _ => ?_, fun hd => absurd hd hnd⟩
    rcases hblock with he | hd | rfl
    · obtain ⟨hdec, hpixOut, -, hinp⟩ := encStep_other he
      exact ⟨hdec, hpixOut, hinp⟩
    · rw [decStep_of_done_or_fault (s := s.taken) hp] at hd
      cases hd
    · exact ⟨rfl, rfl, rfl⟩

/-- A sequence that covers a range has no holes, and the range is as long. -/
theorem Memory.dense_of_covers {α : Type} {m : Memory α} {n : Nat} (h : m.covers n) : m.dense ∧ m.length = n := by
  have hlen : m.length = n := by simpa using congrArg List.length h
  exact ⟨by rw [Memory.dense, hlen]; exact h, hlen⟩

/-- A window over the whole of a covered range sees every element. -/
theorem Memory.window_of_covers {α : Type} {m : Memory α} {n : Nat} (h : m.covers n) : m.window 0 n = m.elements := by
  obtain ⟨hd, hlen⟩ := Memory.dense_of_covers h
  have hlen' : m.elements.length = n := by rw [Memory.elements, List.length_map, hlen]
  rw [← hlen']
  exact Memory.window_eq m.elements 0 fun k _ => by rw [Nat.zero_add, Memory.read_eq_elements hd]

/-- Settles O34: in DONE the invariant says that PIX_OUT holds the pixels of the total. -/
theorem resultIsDefinedOnlyInDone : Obligations.ResultIsDefinedOnlyInDone := by
  intro s hi
  refine ⟨fun hp => ?_, fun hp => ?_, fun hp => ⟨Dec.ready_eq_false (.inr hp), fun t => ?_⟩⟩
  · have hcov := hi.dec.out_covers
    rw [hi.dec.done hp] at hcov
    obtain ⟨hd, hlen⟩ := Memory.dense_of_covers hcov
    refine ⟨s.pixOut.elements, ?_, ?_, fun i => (Memory.read_eq_elements hd i).symm⟩
    · rw [State.decodeResult, hp, Memory.window_of_covers hcov]
    · rw [Memory.elements, List.length_map, hlen, hi.dec.total]
  · cases hphase : s.dec.phase with
    | done => exact absurd hphase hp
    | _ => simp [State.decodeResult, hphase]
  · simp [decStep_of_done_or_fault hp]

/-! What each block's turn depends on (O46) -/

/-- `s` with ENC's half of the machine, and the agenda, of `u`. -/
def State.withEncHalf (s u : State) : State :=
  { s with enc := u.enc, pixIn := u.pixIn, out := u.out, agenda := u.agenda }

/-- `s` with DEC's half of the machine, and the agenda, of `u`. -/
def State.withDecHalf (s u : State) : State :=
  { s with dec := u.dec, inp := u.inp, pixOut := u.pixOut, agenda := u.agenda }

theorem State.withEncHalf_eq {s u : State} (hd : u.dec = s.dec) (hi : u.inp = s.inp) (ho : u.pixOut = s.pixOut) :
    s.withEncHalf u = u := by
  simp only [State.withEncHalf, ← hd, ← hi, ← ho]

theorem State.withDecHalf_eq {s u : State} (he : u.enc = s.enc) (hi : u.pixIn = s.pixIn) (ho : u.out = s.out) :
    s.withDecHalf u = u := by
  simp only [State.withDecHalf, ← he, ← hi, ← ho]

theorem emitPixels_withEncHalf (n : Nat) (p : Pixel) (s u : State) :
    emitPixels n p (s.withEncHalf u) = (emitPixels n p s).withEncHalf u := by
  induction n generalizing s with
  | zero => rfl
  | succ n ih => exact ih (emitPixel p s)

/-- An instruction neither reads nor writes ENC's half. -/
theorem exec_withEncHalf {i : Instr} {s t : State} (u : State) (h : exec i s = .next t) :
    exec i (s.withEncHalf u) = .next (t.withEncHalf u) := by
  rcases exec_cases h with ⟨w, ht, ch, cs, rfl, hp, hpc, rfl⟩ |
    ⟨hp, ⟨rfl, rfl⟩ | ⟨p, len, hd, rfl⟩ | ⟨key, rfl, rfl⟩ | ⟨len1, rfl, rfl⟩⟩
  · exact exec_header (s := s.withEncHalf u) w ht ch cs hp hpc
  · exact exec_rgba (s := s.withEncHalf u) hp
  · exact exec_delivered (s := s.withEncHalf u) hp hd
  · exact opcodeStep_next (s := s.withEncHalf u) hp
  · refine (opcodeStep_next (s := s.withEncHalf u) hp).trans ?_
    rw [emitPixels_withEncHalf]
    rfl

theorem magicStep_withEncHalf (s u : State) : magicStep (s.withEncHalf u) = (magicStep s).withEncHalf u := by
  have hinp : (s.withEncHalf u).inp = s.inp := rfl
  rcases magicStep_cases s with ⟨_, hd, h⟩ | ⟨_, hd, h⟩
  · rw [h, magicStep, hinp, hd]; rfl
  · rw [h, magicStep, hinp, hd]; rfl

theorem execFetched_withEncHalf {d : Except DecodeError (Instr × List Byte)} {s t : State} (u : State)
    (h : execFetched d s = .next t) : execFetched d (s.withEncHalf u) = .next (t.withEncHalf u) := by
  cases d with
  | error e => cases h; rfl
  | ok r => exact exec_withEncHalf u h

/-- A turn without a step passes (log 3). -/
theorem decTurn_of_not_ready {s : State} (h : s.dec.ready = false) : runEvent .decTurn s = .next s := by
  simp [runEvent_decTurn, h]

/-- DEC has a step in three places only (R102, R103, R150). -/
theorem Dec.ready_cases (d : Dec) : d.ready = false ∨ (d.phase = .header ∧ d.pc = 0) ∨
    (d.phase = .header ∧ d.pc = 4) ∨ d.phase = .opcodes := by
  cases hp : d.phase with
  | header => by_cases h0 : d.pc = 0 <;> by_cases h4 : d.pc = 4 <;> simp [Dec.ready, hp, h0, h4]
  | _ => simp [Dec.ready, hp]

/-- DEC's turn neither reads nor writes ENC's half (R23, R171). -/
theorem decTurn_withEncHalf {s t : State} (u : State) (h : runEvent .decTurn s = .next t) :
    runEvent .decTurn (s.withEncHalf u) = .next (t.withEncHalf u) := by
  rcases Dec.ready_cases s.dec with hr | ⟨hp, hpc⟩ | ⟨hp, hpc⟩ | hp
  · rw [decTurn_of_not_ready hr] at h
    cases h
    exact decTurn_of_not_ready (s := s.withEncHalf u) hr
  · rw [decTurn_eq_magicStep hp hpc] at h
    cases h
    rw [← magicStep_withEncHalf]
    exact decTurn_eq_magicStep (s := s.withEncHalf u) hp hpc
  · rw [decTurn_eq_execFetched_fetchDims hp hpc] at h
    exact (decTurn_eq_execFetched_fetchDims (s := s.withEncHalf u) hp hpc).trans (execFetched_withEncHalf u h)
  · rw [decTurn_eq_execFetched_fetchOpcode hp] at h
    exact (decTurn_eq_execFetched_fetchOpcode (s := s.withEncHalf u) hp).trans (execFetched_withEncHalf u h)

theorem encPixelStep_withDecHalf (cur : Pixel) (s u : State) :
    encPixelStep cur (s.withDecHalf u) = (encPixelStep cur s).withDecHalf u := by
  by_cases hc : cur = s.enc.prev
  · subst hc
    rw [encPixelStep_run s, apply_ite (State.withDecHalf · u)]
    exact encPixelStep_run (s.withDecHalf u)
  · rw [encPixelStep_other hc]
    exact encPixelStep_other (s := s.withDecHalf u) hc

/-- ENC's step neither reads nor writes DEC's half. -/
theorem encStep_withDecHalf {s t : State} (u : State) (h : encStep s = .next t) :
    encStep (s.withDecHalf u) = .next (t.withDecHalf u) := by
  rcases encStep_cases h with ⟨hp, rfl⟩ | ⟨hp, cur, hread, rfl⟩
  · have hp' : (s.withDecHalf u).enc.phase = .header := hp
    rw [encStep, hp']
    rfl
  · have hp' : (s.withDecHalf u).enc.phase = .pixels := hp
    have hread' : (s.withDecHalf u).pixIn.read (s.withDecHalf u).enc.inCount.toNat = some cur := hread
    rw [← encPixelStep_withDecHalf]
    simp [encStep, hp', hread']

/-- ENC's turn neither reads nor writes DEC's half, and passes where ENC has no step (R23, R171). -/
theorem encTurn_withDecHalf {s t : State} (u : State) (h : runEvent .encTurn s = .next t) :
    runEvent .encTurn (s.withDecHalf u) = .next (t.withDecHalf u) := by
  have hready : (s.withDecHalf u).encReady = s.encReady := rfl
  rw [runEvent_encTurn] at h ⊢
  rw [hready]
  split at h
  · next hr => rw [if_pos hr]; exact encStep_withDecHalf u h
  · next hr => rw [if_neg hr]; cases h; rfl

/-- Settles O46: a state that agrees with `s` on one block is `s` with the other half replaced, and the turn of that
block goes the same way. -/
theorem eachBlockDependsOnItsOwnStateAlone : Obligations.EachBlockDependsOnItsOwnStateAlone := by
  refine ⟨fun s s' t hd hi ho h => ?_, fun s s' t he hi ho h => ?_⟩
  · have h' := decTurn_withEncHalf s' h
    rw [State.withEncHalf_eq hd hi ho] at h'
    exact ⟨_, h', rfl, rfl, rfl⟩
  · have h' := encTurn_withDecHalf s' h
    rw [State.withDecHalf_eq he hi ho] at h'
    exact ⟨_, h', rfl, rfl, rfl⟩

end Sys2Proof.Machine
end

section
/-! PROOFS. Fault entry of the decoder (R189), and the encoder without a fault (R184). -/

namespace Sys2Proof.Machine

/-! Fault entry (O32) -/

/-- Bytes that are no instruction always have a cause (R180). -/
theorem faultOf_ne_none (e : DecodeError) : faultOf e ≠ .none := by cases e <;> decide

/-- The end of an opcode step leaves DEC in DONE or in OPCODES (R150). -/
theorem finishOpcode_phase_ne_fault {s : State} (len : Nat) (hp : s.dec.phase = .opcodes) :
    (finishOpcode len s).dec.phase ≠ .fault := by
  simp only [finishOpcode_dec, hp]
  split <;> decide

/-- Of the instructions only RGBA brings DEC into FAULT, by fault entry (R153). -/
theorem exec_enters_fault {i : Instr} {s t : State} (h : exec i s = .next t) (ht : t.dec.phase = .fault) :
    t = takeFault .unsupportedOpcode s := by
  rcases exec_cases h with ⟨w, hgt, _, _, _, _, _, rfl⟩ |
    ⟨hp, ⟨_, rfl⟩ | ⟨_, len, _, rfl⟩ | ⟨_, _, rfl⟩ | ⟨l, _, rfl⟩⟩
  · rcases ite_eq_or_eq (pixelTotal w hgt = 0#64) DecPhase.done .opcodes with hph | hph <;> cases hph.symm.trans ht
  · rfl
  · exact absurd ht (finishOpcode_phase_ne_fault len hp)
  · exact absurd ht (finishOpcode_phase_ne_fault 1 hp)
  · refine absurd ht (finishOpcode_phase_ne_fault 1 ?_)
    rw [(emitPixels_fields (min (runLength l) s.dec.owed) s.dec.prev s).1]
    exact hp

/-- A step of DEC that ends in FAULT is fault entry, with one of the three causes (R180, R189). -/
theorem decStep_enters_fault {s t : State} (h : decStep s = .next t) (ht : t.dec.phase = .fault) :
    ∃ c, c ≠ .none ∧ t = takeFault c s := by
  have hexec {i : Instr} (hx : exec i s = .next t) : ∃ c, c ≠ .none ∧ t = takeFault c s :=
    ⟨.unsupportedOpcode, by decide, exec_enters_fault hx ht⟩
  rcases decStep_cases h with ⟨hp, _, rfl⟩ | ⟨_, _, ⟨e, _, rfl⟩ | ⟨_, _, _, hx⟩⟩ | ⟨_, ⟨e, _, rfl⟩ | ⟨_, _, _, hx⟩⟩
  · rcases magicStep_cases s with ⟨_, _, heq⟩ | ⟨e, _, heq⟩ <;> rw [heq] at ht ⊢
    · cases hp.symm.trans ht
    · exact ⟨_, faultOf_ne_none e, rfl⟩
  · exact ⟨_, faultOf_ne_none e, rfl⟩
  · exact hexec hx
  · exact ⟨_, faultOf_ne_none e, rfl⟩
  · exact hexec hx

/-- Settles O32: of all steps only DEC's own can end in FAULT, and that one is fault entry on the state without the
event taken. -/
theorem faultEntryWritesNothingElse : Obligations.FaultEntryWritesNothingElse := by
  intro s t h hs ht
  rcases step_cases h with ⟨_, _, _, -, -, rfl⟩ | ⟨_, -, -, rfl⟩ | ⟨-, -, he | hd | rfl⟩
  · exact absurd ht hs
  · cases ht
  · rw [(encStep_other he).1] at ht
    exact absurd ht hs
  · obtain ⟨c, hc, rfl⟩ := decStep_enters_fault hd ht
    exact ⟨c, hc, faultEntered_takeFault s.taken c⟩
  · exact absurd ht hs

/-! The encoder (O41) -/

/-- ENC answers a next state whenever it has a step (R184). -/
theorem encStep_of_encReady {s : State} (h : s.encReady = true) : ∃ t, encStep s = .next t := by
  cases hp : s.enc.phase with
  | header => exact ⟨_, by rw [encStep, hp]⟩
  | pixels =>
    simp only [State.encReady, hp] at h
    obtain ⟨cur, hread⟩ := Option.isSome_iff_exists.mp h
    exact ⟨encPixelStep cur s, by simp [encStep, hp, hread]⟩
  | idle => simp [State.encReady, hp] at h
  | done => simp [State.encReady, hp] at h

/-- In PIXELS without its next pixel ENC has no step (R51, R197). -/
theorem State.encReady_of_no_pixel {s : State} (hp : s.enc.phase = .pixels)
    (hread : s.pixIn.read s.enc.inCount.toNat = none) : s.encReady = false := by
  simp [State.encReady, hp, hread]

/-- Settles O41: a step that ENC has is answered and is ENC's own; without its pixel ENC passes, and the machine with
nothing else to do names the missing pixel. -/
theorem encoderNeverFaults : Obligations.EncoderNeverFaults := by
  refine ⟨fun s h => ?_, fun s hp hread => ?_⟩
  · obtain ⟨t, ht⟩ := encStep_of_encReady h
    exact ⟨t, by rw [runEvent_encTurn, if_pos h, ht], (encStep_other ht).1⟩
  · have he := State.encReady_of_no_pixel hp hread
    refine ⟨by simp [runEvent_encTurn, he], fun ha hd => ?_⟩
    simp [step_of_nil ha, restStep, hd, he, restReason, hp]

end Sys2Proof.Machine
end

section
/-! PROOFS. Power-on and the start commands (R200, R201, R206), and the end of every decode (R214). -/

namespace Sys2Proof.Machine

/-! Power-on (O13) -/

/-- Settles O13: column 3 of R47, register by register. -/
theorem powerOnIsZeroAndIdle : Obligations.PowerOnIsZeroAndIdle :=
  ⟨Cache.read_zero, rfl, rfl, rfl, rfl, rfl, rfl, rfl, rfl,
    Cache.read_zero, rfl, rfl, rfl, rfl, rfl, rfl, rfl, rfl, rfl, rfl, rfl, rfl, rfl⟩

/-! The start commands (O15, O16) -/

/-- ENC takes a start command between invocations only (R204). -/
theorem Enc.acceptsStart_iff (e : Enc) : e.acceptsStart = true ↔ e.phase = .idle ∨ e.phase = .done := by
  cases hp : e.phase <;> simp [Enc.acceptsStart, hp]

/-- DEC takes a start command between invocations only (R205). -/
theorem Dec.acceptsStart_iff (d : Dec) :
    d.acceptsStart = true ↔ d.phase = .idle ∨ d.phase = .done ∨ d.phase = .fault := by
  cases hp : d.phase <;> simp [Dec.acceptsStart, hp]

/-- With `enc_start` next, the step is that command: taken, or refused (R200, R206). -/
theorem step_encStart {s : State} {w h : Dim} {px : List Pixel} {es : List Event}
    (ha : s.agenda = .encStart w h px :: es) :
    step s = if s.enc.acceptsStart then
      .next { s with enc := Enc.started w h, pixIn := Memory.ofList px, out := [], agenda := es }
    else .refused .startWhileBusy := step_of_cons ha

/-- With `dec_start` next, the step is that command: taken, or refused (R200, R206). -/
theorem step_decStart {s : State} {bs : List Byte} {es : List Event} (ha : s.agenda = .decStart bs :: es) :
    step s = if s.dec.acceptsStart then
      .next { s with dec := Dec.started, inp := Memory.ofList bs, pixOut := [], agenda := es }
    else .refused .startWhileBusy := step_of_cons ha

/-- Settles O15: an accepted command puts its block in the started state, whose registers are column 2 of R47. -/
theorem startCommandsWriteEveryRegister : Obligations.StartCommandsWriteEveryRegister := by
  refine ⟨fun s w h px es ha hp => ?_, fun s bs es ha hp => ?_⟩
  · rw [step_encStart ha, if_pos (s.enc.acceptsStart_iff.mpr hp)]
    exact ⟨_, rfl, Cache.read_zero, rfl, rfl, rfl, rfl, pixelTotal_toNat w h, rfl, rfl, rfl, Memory.read_nil,
      rfl, rfl, rfl, rfl⟩
  · rw [step_decStart ha, if_pos (s.dec.acceptsStart_iff.mpr hp)]
    exact ⟨_, rfl, Cache.read_zero, rfl, rfl, rfl, rfl, rfl, rfl, rfl, rfl, rfl, rfl, rfl, rfl, rfl, Memory.read_nil,
      rfl, rfl, rfl, rfl⟩

/-- Settles O16: a block in the middle of an invocation does not accept the command. -/
theorem startWhileBusyIsRefused : Obligations.StartWhileBusyIsRefused := by
  refine ⟨fun s w h px es ha hp => ?_, fun s bs es ha hp => ?_⟩
  · have hbusy : ¬ s.enc.acceptsStart = true := by
      rw [Enc.acceptsStart_iff]
      rcases hp with hp | hp <;> simp [hp]
    rw [step_encStart ha, if_neg hbusy]
  · have hbusy : ¬ s.dec.acceptsStart = true := by
      rw [Dec.acceptsStart_iff]
      rcases hp with hp | hp <;> simp [hp]
    rw [step_decStart ha, if_neg hbusy]

/-! Progress of an opcode step (O30) -/

/-- `t` is `s` after an RGBA, which faults, or after an opcode that has emitted at least one pixel. -/
def FaultsOrEmits (s t : State) : Prop := t = takeFault .unsupportedOpcode s ∨ ∃ p n, 0 < n ∧ EmitsPixels s t p n

/-- With a pixel owed, every opcode answers, and faults or emits. -/
theorem exec_faultsOrEmits {i : Instr} {s : State} (ho : Owes s) (hop : i.isOpcode = true) :
    ∃ t, exec i s = .next t ∧ FaultsOrEmits s t := by
  have hdelivers {p : Pixel} {len : Nat} (hd : Instr.delivered s.dec.prev i = some (p, len)) :
      ∃ t, exec i s = .next t ∧ FaultsOrEmits s t := by
    obtain ⟨t, hx, -, hemits, -⟩ := exec_delivers ho hd
    exact ⟨t, hx, .inr ⟨p, 1, Nat.one_pos, hemits⟩⟩
  cases i with
  | rgb r g b => exact hdelivers rfl
  | rgba => exact ⟨_, exec_rgba ho.1, .inl rfl⟩
  | index key =>
    obtain ⟨t, hx, hemits, -⟩ := exec_index key ho
    exact ⟨t, hx, .inr ⟨_, 1, Nat.one_pos, hemits⟩⟩
  | diff fr fg fb => exact hdelivers rfl
  | luma fdg frg fbg => exact hdelivers rfl
  | run len1 =>
    obtain ⟨t, hx, hemits, -⟩ := exec_run len1 ho
    exact ⟨t, hx, .inr ⟨_, _, runClipped_pos len1 ho, hemits⟩⟩
  | header w h ch cs => cases hop

/-- With a pixel owed, DEC's turn answers, keeps the total, and faults or counts a pixel (R214). -/
theorem decTurn_progress {s : State} (ho : Owes s) :
    ∃ t, runEvent .decTurn s = .next t ∧ t.dec.nTotal = s.dec.nTotal ∧
      (t.dec.phase = .fault ∨ s.dec.outCount.toNat < t.dec.outCount.toNat) := by
  rw [decTurn_eq_execFetched_fetchOpcode ho.1]
  cases hf : fetchOpcode s with
  | error e => exact ⟨_, rfl, rfl, .inl rfl⟩
  | ok r =>
    obtain ⟨-, -, hop⟩ := (decodeOpcode_eq_ok_iff (i := r.1) (rest := r.2)).mp hf
    obtain ⟨t, hx, rfl | ⟨p, n, hn, hemits⟩⟩ := exec_faultsOrEmits ho hop
    · exact ⟨_, hx, rfl, .inl rfl⟩
    · obtain ⟨⟨-, -, -, htotal, -⟩, -⟩ := exec_frame_of_emits hx ho.1 hemits hn
      obtain ⟨hlt, -⟩ := hemits.last hn
      exact ⟨t, hx, htotal, .inr hlt⟩

/-- In OPCODES the invariant says that a pixel is owed (R41). -/
theorem DecInv.owes {s : State} (hi : DecInv s.dec s.pixOut) (hp : s.dec.phase = .opcodes) : Owes s :=
  ⟨hp, (hi.opcodes hp).1⟩

/-- Settles O30: a pixel counted is one fewer owed. -/
theorem everyOpcodeStepMakesProgress : Obligations.EveryOpcodeStepMakesProgress := by
  intro s hi hp
  have ho := hi.dec.owes hp
  obtain ⟨t, hturn, htotal, hf | hlt⟩ := decTurn_progress ho
  · exact ⟨t, hturn, .inl hf⟩
  · exact ⟨t, hturn, .inr ⟨Nat.sub_lt_sub_left ho.2 hlt, htotal⟩⟩

/-! The end of every decode (O31) -/

/-- DEC's turn leaves the agenda as it is, as it does all of ENC's half. -/
theorem decTurn_agenda {s t : State} (h : runEvent .decTurn s = .next t) : t.agenda = s.agenda := by
  have hsame : t = t.withEncHalf s := Host.Outcome.next.inj (h.symm.trans (decTurn_withEncHalf s h))
  calc t.agenda = (t.withEncHalf s).agenda := congrArg State.agenda hsame
    _ = s.agenda := rfl

/-- From `s` DEC is in DONE or FAULT within `n` steps, under the total it has in `s`. -/
def EndsWithin (n : Nat) (s : State) : Prop :=
  ∃ k t, Reaches k s t ∧ (t.dec.phase = .done ∨ t.dec.phase = .fault) ∧ t.dec.nTotal = s.dec.nTotal ∧ k ≤ n

theorem EndsWithin.of_ended {s : State} (h : s.dec.phase = .done ∨ s.dec.phase = .fault) (n : Nat) : EndsWithin n s :=
  ⟨0, s, rfl, h, rfl, Nat.zero_le n⟩

theorem EndsWithin.of_step {n : Nat} {s t : State} (hstep : step s = .next t) (htotal : t.dec.nTotal = s.dec.nTotal)
    (h : EndsWithin n t) : EndsWithin (n + 1) s := by
  obtain ⟨k, u, hreach, hend, hu, hk⟩ := h
  exact ⟨k + 1, u, ⟨t, hstep, hreach⟩, hend, hu.trans htotal, Nat.succ_le_succ hk⟩

/-- Alone with an empty agenda and no more than `n` pixels owed, DEC in OPCODES ends within `n` steps: each step faults,
or lowers what is owed. -/
theorem endsWithin_of_owed_le (n : Nat) : ∀ s : State, s.agenda = [] → DecInv s.dec s.pixOut →
    s.dec.phase = .opcodes → s.dec.owed ≤ n → EndsWithin n s := by
  induction n with
  | zero =>
    intro s _ hi hp howed
    have hlt := (hi.owes hp).2
    simp only [Dec.owed] at howed
    omega
  | succ n ih =>
    intro s ha hi hp howed
    obtain ⟨t, hturn, htotal, hprogress⟩ := decTurn_progress (hi.owes hp)
    have hstep : step s = .next t := (step_eq_decTurn ha (by simp [Dec.ready, hp])).trans hturn
    refine .of_step hstep htotal ?_
    have hphase := execFetched_phase ((decTurn_eq_execFetched_fetchOpcode hp).symm.trans hturn)
    rcases hphase with hf | hd | hop
    · exact .of_ended (.inr hf) n
    · exact .of_ended (.inl hd) n
    · have hlt : s.dec.outCount.toNat < t.dec.outCount.toNat := hprogress.resolve_left (by simp [hop])
      refine ih t ((decTurn_agenda hturn).trans ha) (decTurn_decInv hturn hi) hop ?_
      simp only [Dec.owed, htotal] at howed ⊢
      omega

/-- The dimensions step answers, and leaves DEC in FAULT, DONE or OPCODES (R103). -/
theorem decTurn_dims {s : State} (hp : s.dec.phase = .header) (hpc : s.dec.pc = 4) :
    ∃ t, runEvent .decTurn s = .next t ∧ (t.dec.phase = .fault ∨ t.dec.phase = .done ∨ t.dec.phase = .opcodes) := by
  rw [decTurn_eq_execFetched_fetchDims hp hpc]
  cases hf : fetchDims s with
  | error e => exact ⟨_, rfl, .inl rfl⟩
  | ok r =>
    obtain ⟨w, h, ch, cs, hi, -⟩ := (decodeDims_eq_ok_iff (i := r.1) (rest := r.2)).mp hf
    have hx : exec r.1 s = .next _ := hi ▸ exec_header w h ch cs hp hpc
    exact ⟨_, hx, exec_phase hx⟩

/-- From the second header part DEC ends within one step more than the pixels it comes to owe. -/
theorem ends_from_dims {s : State} (ha : s.agenda = []) (hi : DecInv s.dec s.pixOut) (hp : s.dec.phase = .header)
    (hpc : s.dec.pc = 4) : ∃ k t, Reaches k s t ∧ (t.dec.phase = .done ∨ t.dec.phase = .fault) ∧
      k ≤ 1 + t.dec.nTotal.toNat := by
  obtain ⟨u, hturn, hphase⟩ := decTurn_dims hp hpc
  have hstep : step s = .next u := (step_eq_decTurn ha (by simp [Dec.ready, hp, hpc])).trans hturn
  have hends : EndsWithin u.dec.nTotal.toNat u := by
    rcases hphase with hf | hd | hop
    · exact .of_ended (.inr hf) _
    · exact .of_ended (.inl hd) _
    · exact endsWithin_of_owed_le _ u ((decTurn_agenda hturn).trans ha) (decTurn_decInv hturn hi) hop (Nat.sub_le _ _)
  obtain ⟨k, t, hreach, hend, htotal, hk⟩ := hends
  exact ⟨k + 1, t, ⟨u, hstep, hreach⟩, hend, by rw [htotal]; omega⟩

/-- Settles O31: the start command, then the magic step, which faults or leads to the dimensions step, from where the
pixels owed bound the steps. -/
theorem everyDecodeEnds : Obligations.EveryDecodeEnds := by
  intro bytes
  have hmagic : step (decStarted bytes) = .next (magicStep (decStarted bytes)) :=
    (step_eq_decTurn rfl rfl).trans (decTurn_eq_magicStep rfl rfl)
  have hreach : Reaches 2 { State.reset with agenda := [.decStart bytes] } (magicStep (decStarted bytes)) :=
    ⟨decStarted bytes, rfl, _, hmagic, rfl⟩
  have hinv := decInv_magicStep (s := decStarted bytes) decInv_started rfl rfl
  rcases magicStep_cases (decStarted bytes) with ⟨_, -, heq⟩ | ⟨e, -, heq⟩ <;> rw [heq] at hreach hinv
  · obtain ⟨k, t, hrest, hend, hk⟩ := ends_from_dims rfl hinv rfl rfl
    exact ⟨2 + k, t, reaches_trans hreach hrest, hend, by omega⟩
  · exact ⟨2, _, hreach, .inr rfl, by omega⟩

end Sys2Proof.Machine
end

section
/-! PROOFS. The invariant of a step boundary at power-on. -/

namespace Sys2Proof.Machine

/-- ENC at power-on is IDLE, so the clauses of PIXELS and DONE ask nothing; every register is 0 and OUT holds no byte
(R201). -/
theorem encInv_powerOn : EncInv Enc.powerOn [] where
  run_le := Nat.zero_le 61
  total := rfl
  count_le := le_rfl
  fresh := fun _ => ⟨rfl, rfl, rfl⟩
  pixels := nofun
  done := nofun
  out_covers := rfl

/-- DEC at power-on is IDLE with no cause recorded, so the clauses of the later phases and of a fault ask nothing; every
register is 0 and PIX_OUT holds no pixel (R201). -/
theorem decInv_powerOn : DecInv Dec.powerOn [] where
  run_zero := rfl
  total := rfl
  count_le := le_rfl
  header_pc := nofun
  fresh := fun _ => rfl
  opcodes := nofun
  done := nofun
  fault_cause := ⟨nofun, fun hc => absurd rfl hc⟩
  fault_pc := rfl
  fault_byte := rfl
  format_error := nofun
  out_covers := rfl
  prev_last := .inl ⟨rfl, rfl⟩

/-- Settles O14: each block meets its half as power-on leaves it, and the empty inputs have no holes. -/
theorem powerOnMeetsTheInvariant : Obligations.PowerOnMeetsTheInvariant where
  enc := encInv_powerOn
  dec := decInv_powerOn
  pixIn_dense := Memory.dense_ofList []
  inp_dense := Memory.dense_ofList []

end Sys2Proof.Machine
end
